-- ==== Sys2Proof/Word.lean ====
section
/-! DEFINITION. Words and bytes (spec 00_scope.md section 5). The byte-order helpers stand in Decode.lean
and the comparison with a boundary in Machine/Ops.lean, where a repair can mend them. -/

namespace Sys2Proof

/-- A word: 32 bits, bit 31 the most significant. `+`, `-`, `*` on it are the spec's `+32`, `-32`, `*32`. -/
abbrev Word := BitVec 32

/-- A byte: an integer 0 to 255 (R33: never sign-extended). -/
abbrev Byte := BitVec 8

/-- The signed reading `s32(v)` of a word, -2^31 to 2^31 - 1. -/
abbrev s32 (v : Word) : Int := v.toInt

end Sys2Proof
end

