-- ==== Sys2Proof/Syntax.lean ====
section
/-! DEFINITION. The eight register names (R11), the nineteen mnemonics in the order of R59, and the
instructions: one constructor per row of spec/opcode_table.json, operands in the order of the encoded bytes. -/

namespace Sys2Proof

/-- The eight general registers, in the order of R11. -/
inductive Reg where
  | eax | ebx | ecx | edx | esi | edi | esp | ebp
  deriving DecidableEq, Repr

/-- The nineteen opcodes, in the order of R59. -/
inductive Mnemonic where
  | mov | movi | load | store
  | add | sub | mul | div
  | and | or | xor | not
  | push | pop
  | jmp | jz | jnz | call | ret
  deriving DecidableEq, Repr

/-- An instruction whose fields have been decoded. -/
inductive Instr where
  /-- `MOV dst, src` (R80). -/
  | mov (dst src : Reg)
  /-- `MOVI dst, imm32` (R81). -/
  | movi (dst : Reg) (imm : Word)
  /-- `LOAD dst, addr32` (R85). -/
  | load (dst : Reg) (addr : Word)
  /-- `STORE src, addr32` (R86). -/
  | store (src : Reg) (addr : Word)
  /-- `ADD src1, src2, dst` (R91). -/
  | add (src1 src2 dst : Reg)
  /-- `SUB src1, src2, dst` (R92). -/
  | sub (src1 src2 dst : Reg)
  /-- `MUL src1, src2, dst` (R93). -/
  | mul (src1 src2 dst : Reg)
  /-- `DIV src1, src2, dst` (R94). -/
  | div (src1 src2 dst : Reg)
  /-- `AND src1, src2, dst` (R100). -/
  | and (src1 src2 dst : Reg)
  /-- `OR src1, src2, dst` (R101). -/
  | or (src1 src2 dst : Reg)
  /-- `XOR src1, src2, dst` (R102). -/
  | xor (src1 src2 dst : Reg)
  /-- `NOT reg` (R103). -/
  | not (reg : Reg)
  /-- `PUSH reg` (R109). -/
  | push (reg : Reg)
  /-- `POP reg` (R110). -/
  | pop (reg : Reg)
  /-- `JMP addr32` (R116). -/
  | jmp (target : Word)
  /-- `JZ addr32` (R117). -/
  | jz (target : Word)
  /-- `JNZ addr32` (R118). -/
  | jnz (target : Word)
  /-- `CALL addr32` (R119). -/
  | call (target : Word)
  /-- `RET` (R120). -/
  | ret
  deriving DecidableEq, Repr

/-- The row of the opcode table an instruction belongs to. -/
def Instr.mnemonic : Instr → Mnemonic
  | .mov _ _ => .mov
  | .movi _ _ => .movi
  | .load _ _ => .load
  | .store _ _ => .store
  | .add _ _ _ => .add
  | .sub _ _ _ => .sub
  | .mul _ _ _ => .mul
  | .div _ _ _ => .div
  | .and _ _ _ => .and
  | .or _ _ _ => .or
  | .xor _ _ _ => .xor
  | .not _ => .not
  | .push _ => .push
  | .pop _ => .pop
  | .jmp _ => .jmp
  | .jz _ => .jz
  | .jnz _ => .jnz
  | .call _ => .call
  | .ret => .ret

end Sys2Proof
end

