-- ==== Sys2Proof/Config.lean ====
section
/-! DEFINITION. The implementation parameters of R3. They are plain data carried in State (log 1), so that a
statement about every state holds for every configuration, and none of them changes while the machine runs. -/

namespace Sys2Proof

/-- Which quotient function `DIV_FN` the machine has (R3, R94, R95). -/
inductive DivFn where
  /-- The spec's default of R94: signed, rounded toward zero. -/
  | signedTruncating
  /-- R95's other reading: a function of the two operand words alone of which nothing is assumed (log 9). -/
  | uninterpreted
  deriving DecidableEq, Repr

/-- The quotient under `DivFn.uninterpreted`: no body, so no proof can evaluate it (log 9, free value). -/
opaque Config.freeQuotient : Word → Word → Word

/-- `OPC`: the opcode byte of each mnemonic (R3, R59). -/
structure OpcodeBytes where
  mov : Byte
  movi : Byte
  load : Byte
  store : Byte
  add : Byte
  sub : Byte
  mul : Byte
  div : Byte
  and : Byte
  or : Byte
  xor : Byte
  not : Byte
  push : Byte
  pop : Byte
  jmp : Byte
  jz : Byte
  jnz : Byte
  call : Byte
  ret : Byte
  deriving DecidableEq, Repr

/-- `REGID`: the identifier byte of each register (R3, R11). -/
structure RegisterBytes where
  eax : Byte
  ebx : Byte
  ecx : Byte
  edx : Byte
  esi : Byte
  edi : Byte
  esp : Byte
  ebp : Byte
  deriving DecidableEq, Repr

/-- The configuration (R3). -/
structure Config where
  /-- `PROGRAM_SIZE`: bytes in the program segment. -/
  programSize : Nat
  /-- `DATA_SIZE`: bytes in the data segment. -/
  dataSize : Nat
  /-- `STACK_SIZE`: bytes in the stack segment. -/
  stackSize : Nat
  /-- `PROG_END`: the halting bound the loader seals (R21, R76). -/
  progEnd : Nat
  /-- `OPC` (log 3). -/
  opc : OpcodeBytes
  /-- `REGID` (log 4). -/
  regId : RegisterBytes
  /-- `RESET_GPR`: the reset value of the seven registers other than ESP (log 6). -/
  resetGpr : Word
  /-- The reset value of ZF (R24, log 6). -/
  resetZf : Bool
  /-- `DIV_FN` (log 9). -/
  divFn : DivFn
  deriving DecidableEq, Repr

/-- `OPC(m)` (R59). -/
def Config.opcByte (c : Config) : Mnemonic → Byte
  | .mov => c.opc.mov
  | .movi => c.opc.movi
  | .load => c.opc.load
  | .store => c.opc.store
  | .add => c.opc.add
  | .sub => c.opc.sub
  | .mul => c.opc.mul
  | .div => c.opc.div
  | .and => c.opc.and
  | .or => c.opc.or
  | .xor => c.opc.xor
  | .not => c.opc.not
  | .push => c.opc.push
  | .pop => c.opc.pop
  | .jmp => c.opc.jmp
  | .jz => c.opc.jz
  | .jnz => c.opc.jnz
  | .call => c.opc.call
  | .ret => c.opc.ret

/-- `REGID(r)` (R11). -/
def Config.regByte (c : Config) : Reg → Byte
  | .eax => c.regId.eax
  | .ebx => c.regId.ebx
  | .ecx => c.regId.ecx
  | .edx => c.regId.edx
  | .esi => c.regId.esi
  | .edi => c.regId.edi
  | .esp => c.regId.esp
  | .ebp => c.regId.ebp

/-- The mnemonics in the order of R59. -/
def Mnemonic.all : List Mnemonic :=
  [.mov, .movi, .load, .store, .add, .sub, .mul, .div, .and, .or, .xor, .not, .push, .pop,
    .jmp, .jz, .jnz, .call, .ret]

/-- The registers in the order of R11. -/
def Reg.all : List Reg := [.eax, .ebx, .ecx, .edx, .esi, .edi, .esp, .ebp]

/-- `PROG_START` (R3). -/
def Config.progStart (_ : Config) : Nat := 0

/-- `DATA_START` (R3). -/
def Config.dataStart (c : Config) : Nat := c.programSize

/-- `STACK_START` (R3). -/
def Config.stackStart (c : Config) : Nat := c.programSize + c.dataSize

/-- `STACK_END` (R3). -/
def Config.stackEnd (c : Config) : Nat := c.programSize + c.dataSize + c.stackSize

/-- `MEM_SIZE` (R3). -/
def Config.memSize (c : Config) : Nat := c.stackEnd

end Sys2Proof
end

