-- ==== Sys2Proof/WellFormed.lean ====
section
/-! DEFINITION. What is well formed: the legal configurations (R4, and the injectivity R3 asks of OPC and
REGID, log 5), and instructions, on which the spec puts no restriction beyond what their types say. -/

namespace Sys2Proof

/-- R4: the loader's entry slot fits the program segment. -/
def Config.programSizeOk (c : Config) : Bool := decide (8 ≤ c.programSize)

/-- R4: every valid address is non-negative under the signed reading. -/
def Config.memSizeOk (c : Config) : Bool := decide (c.memSize < 2 ^ 31)

/-- R4: the halting bound lies inside the program segment. -/
def Config.progEndOk (c : Config) : Bool := decide (c.progStart ≤ c.progEnd) && decide (c.progEnd ≤ c.dataStart)

/-- R3: `OPC` is an injective map. -/
def Config.opcOk (c : Config) : Bool := decide (Mnemonic.all.map c.opcByte).Nodup

/-- R3: `REGID` is an injective map. -/
def Config.regIdOk (c : Config) : Bool := decide (Reg.all.map c.regByte).Nodup

/-- A legal configuration; an illegal one gets no run (R4). -/
def Config.legal (c : Config) : Bool :=
  c.programSizeOk && c.memSizeOk && c.progEndOk && c.opcOk && c.regIdOk

/-- Every instruction is well formed: any of the eight registers stands in any register field (R12) and
every word is an acceptable 32-bit field (R63). A register byte that names no register never becomes an
`Instr`: it is refused at decode (R58). -/
def Instr.wellFormed (_ : Instr) : Bool := true

end Sys2Proof
end

