-- ==== Sys2Proof/Decode.lean ====
section
/-! DEFINITION. The encoding (30_encoding.md): byte order, the default opcode and register bytes, the six
formats, the decoder (R64) with the offsets of the bytes it reads, and the encoder. -/

namespace Sys2Proof

/-! Byte order (R37). -/

/-- Byte `i` of a word, 0 the least significant (R36). -/
def wordByte (w : Word) (i : Nat) : Byte := (w >>> (8 * i)).setWidth 8

/-- Four bytes, least significant first, as a word: `b0 | b1<<8 | b2<<16 | b3<<24` (R35), each zero-extended. -/
def wordOfBytes (b0 b1 b2 b3 : Byte) : Word :=
  b0.setWidth 32 ||| (b1.setWidth 32 <<< 8) ||| (b2.setWidth 32 <<< 16) ||| (b3.setWidth 32 <<< 24)

/-- The four bytes of a word as they lie in memory, lowest address first (R37). -/
def wordBytes (w : Word) : List Byte := [wordByte w 0, wordByte w 1, wordByte w 2, wordByte w 3]

/-! The opcode and register bytes (R58, R59). -/

/-- The default `OPC` of R59: 0x01 to 0x13 in the table's order (log 3). -/
def defaultOpc : OpcodeBytes where
  mov := 0x01
  movi := 0x02
  load := 0x03
  store := 0x04
  add := 0x05
  sub := 0x06
  mul := 0x07
  div := 0x08
  and := 0x09
  or := 0x0A
  xor := 0x0B
  not := 0x0C
  push := 0x0D
  pop := 0x0E
  jmp := 0x0F
  jz := 0x10
  jnz := 0x11
  call := 0x12
  ret := 0x13

/-- The default `REGID` of R11: 0x00 to 0x07 in the table's order (log 4). -/
def defaultRegId : RegisterBytes where
  eax := 0x00
  ebx := 0x01
  ecx := 0x02
  edx := 0x03
  esi := 0x04
  edi := 0x05
  esp := 0x06
  ebp := 0x07

/-- The mnemonic `m` with `OPC(m)` the given byte, all eight bits compared, if there is one (R60). -/
def Config.mnemonicOf (c : Config) (b : Byte) : Option Mnemonic :=
  Mnemonic.all.find? fun m => c.opcByte m == b

/-- `reg(b)`: the register the byte names, if it names one (R58). -/
def Config.regOf (c : Config) (b : Byte) : Option Reg :=
  Reg.all.find? fun r => c.regByte r == b

/-! Formats and lengths (R50 to R56). -/

/-- The six formats of R50's table. -/
inductive Format where
  /-- register-to-register move (R51) -/
  | rr
  /-- immediate move, load, store (R52) -/
  | ri
  /-- three-register arithmetic and logic (R53) -/
  | alu3
  /-- one register (R54) -/
  | r1
  /-- jump-class (R55) -/
  | j
  /-- return (R56) -/
  | n
  deriving DecidableEq, Repr

/-- The format of each opcode (R59). -/
def Mnemonic.format : Mnemonic → Format
  | .mov => .rr
  | .movi | .load | .store => .ri
  | .add | .sub | .mul | .div | .and | .or | .xor => .alu3
  | .not | .push | .pop => .r1
  | .jmp | .jz | .jnz | .call => .j
  | .ret => .n

/-- The length in bytes of each format (R50). -/
def Format.length : Format → Nat
  | .rr | .alu3 | .r1 | .n => 4
  | .ri | .j => 8

/-- The length in bytes of an opcode: fixed per opcode (R50, R65). -/
def Mnemonic.length (m : Mnemonic) : Nat := m.format.length

/-- The offsets of a format's register bytes, in the order R64 reads them. -/
def Format.regOffsets : Format → List Nat
  | .rr => [1, 2]
  | .ri => [1]
  | .alu3 => [1, 2, 3]
  | .r1 => [1]
  | .j => []
  | .n => []

/-- The offsets of a format's 32-bit field (R57), in the order a word read takes its bytes (R35). -/
def Format.fieldOffsets : Format → List Nat
  | .ri | .j => [4, 5, 6, 7]
  | .rr | .alu3 | .r1 | .n => []

/-- The offsets of a format's pad bytes (R51 to R56). -/
def Format.padOffsets : Format → List Nat
  | .rr => [3]
  | .ri => [2, 3]
  | .alu3 => []
  | .r1 => [2, 3]
  | .j => [1, 2, 3]
  | .n => [1, 2, 3]

/-! The decoder (R64). -/

/-- Why a decode raises (R60, R61). -/
inductive DecodeError where
  /-- The opcode byte is not in the ISA table (R60). -/
  | invalidOpcode
  /-- A register field holds a byte that names no register (R58, R61). -/
  | invalidRegister
  deriving DecidableEq, Repr

/-- What a decode does: the offsets of the bytes it reads, in order, and what it finds. -/
structure Decoded where
  /-- Offsets from the instruction's address, in the order of the reads. -/
  reads : List Nat
  /-- The instruction, or the error raised. -/
  result : Except DecodeError Instr
  deriving DecidableEq, Repr

/-- Byte `i` of the instruction; a byte the list does not hold is 0, as an out-of-range read is (R33, log 11). -/
def byteAt (bs : List Byte) (i : Nat) : Byte := bs.getD i 0

/-- The 32-bit field `IMM` of formats RI and J (R57). -/
def fieldAt (bs : List Byte) : Word := wordOfBytes (byteAt bs 4) (byteAt bs 5) (byteAt bs 6) (byteAt bs 7)

/-- The decode is complete. -/
def Decoded.done (i : Instr) : Decoded := ⟨[], .ok i⟩

/-- Read the byte at `off`, then go on. -/
def Decoded.reading (off : Nat) (d : Decoded) : Decoded := ⟨off :: d.reads, d.result⟩

/-- Read the register byte at `off` and decode it, or raise InvalidRegister there (R58, R64). -/
def Decoded.register (c : Config) (bs : List Byte) (off : Nat) (next : Reg → Decoded) : Decoded :=
  Decoded.reading off (match c.regOf (byteAt bs off) with
    | some r => next r
    | none => ⟨[], .error .invalidRegister⟩)

/-- Read the 32-bit field, four byte reads in ascending order (R35, R57), then go on. -/
def Decoded.field (bs : List Byte) (next : Word → Decoded) : Decoded :=
  Decoded.reading 4 (Decoded.reading 5 (Decoded.reading 6 (Decoded.reading 7 (next (fieldAt bs)))))

/-- Operands of format RR (R51). -/
def Decoded.formatRR (c : Config) (bs : List Byte) (f : Reg → Reg → Instr) : Decoded :=
  Decoded.register c bs 1 fun dst => Decoded.register c bs 2 fun src => Decoded.done (f dst src)

/-- Operands of format RI (R52). -/
def Decoded.formatRI (c : Config) (bs : List Byte) (f : Reg → Word → Instr) : Decoded :=
  Decoded.register c bs 1 fun r => Decoded.field bs fun imm => Decoded.done (f r imm)

/-- Operands of format ALU3 (R53). -/
def Decoded.formatALU3 (c : Config) (bs : List Byte) (f : Reg → Reg → Reg → Instr) : Decoded :=
  Decoded.register c bs 1 fun s1 => Decoded.register c bs 2 fun s2 => Decoded.register c bs 3 fun d =>
    Decoded.done (f s1 s2 d)

/-- Operands of format R1 (R54). -/
def Decoded.formatR1 (c : Config) (bs : List Byte) (f : Reg → Instr) : Decoded :=
  Decoded.register c bs 1 fun r => Decoded.done (f r)

/-- Operands of format J (R55). -/
def Decoded.formatJ (bs : List Byte) (f : Word → Instr) : Decoded :=
  Decoded.field bs fun imm => Decoded.done (f imm)

/-- Operands of an opcode (R59, R64). -/
def decodeOperands (c : Config) (bs : List Byte) : Mnemonic → Decoded
  | .mov => Decoded.formatRR c bs .mov
  | .movi => Decoded.formatRI c bs .movi
  | .load => Decoded.formatRI c bs .load
  | .store => Decoded.formatRI c bs .store
  | .add => Decoded.formatALU3 c bs .add
  | .sub => Decoded.formatALU3 c bs .sub
  | .mul => Decoded.formatALU3 c bs .mul
  | .div => Decoded.formatALU3 c bs .div
  | .and => Decoded.formatALU3 c bs .and
  | .or => Decoded.formatALU3 c bs .or
  | .xor => Decoded.formatALU3 c bs .xor
  | .not => Decoded.formatR1 c bs .not
  | .push => Decoded.formatR1 c bs .push
  | .pop => Decoded.formatR1 c bs .pop
  | .jmp => Decoded.formatJ bs .jmp
  | .jz => Decoded.formatJ bs .jz
  | .jnz => Decoded.formatJ bs .jnz
  | .call => Decoded.formatJ bs .call
  | .ret => Decoded.done .ret

/-- The decode procedure of R64 over the bytes from the instruction's address on: the opcode byte first
(R60), then the operand bytes; pads are not read (R62). -/
def decodeTrace (c : Config) (bs : List Byte) : Decoded :=
  Decoded.reading 0 (match c.mnemonicOf (byteAt bs 0) with
    | none => ⟨[], .error .invalidOpcode⟩
    | some m => decodeOperands c bs m)

/-- The instruction the bytes decode to, or the error decode raises; total on any bytes (R63). -/
def decode (c : Config) (bs : List Byte) : Except DecodeError Instr := (decodeTrace c bs).result

/-! The encoder. -/

/-- The operand bytes of an instruction, pads written 0 (R51 to R57, R62). -/
def encodeOperands (c : Config) : Instr → List Byte
  | .mov dst src => [c.regByte dst, c.regByte src, 0]
  | .movi r imm | .load r imm | .store r imm => [c.regByte r, 0, 0] ++ wordBytes imm
  | .add s1 s2 d | .sub s1 s2 d | .mul s1 s2 d | .div s1 s2 d | .and s1 s2 d | .or s1 s2 d | .xor s1 s2 d =>
    [c.regByte s1, c.regByte s2, c.regByte d]
  | .not r | .push r | .pop r => [c.regByte r, 0, 0]
  | .jmp t | .jz t | .jnz t | .call t => [0, 0, 0] ++ wordBytes t
  | .ret => [0, 0, 0]

/-- The bytes of an instruction, lowest address first (R50). -/
def encode (c : Config) (i : Instr) : List Byte := c.opcByte i.mnemonic :: encodeOperands c i

/-! The configuration State.reset has, and the host's reading of an opcode-table row. -/

/-- The configuration of State.reset: the sizes of 95_test_vectors.md section 2 (log 1), PROG_END at the
allocated end of the program segment until a loader seals it (log 2), and the spec's defaults (logs 3, 4, 6, 9). -/
def Config.default : Config where
  programSize := 64
  dataSize := 16
  stackSize := 32
  progEnd := 64
  opc := defaultOpc
  regId := defaultRegId
  resetGpr := 0
  resetZf := false
  divFn := .signedTruncating

/-- The eight bytes of an instruction whose first `nbits` bits are `w`, bit 0 the least significant of
byte 0; every bit above `nbits` is 0. -/
def tableBytes (nbits w : Nat) : List Byte :=
  (List.range 8).map fun i => BitVec.ofNat 8 ((w % 2 ^ nbits) >>> (8 * i))

/-- The instruction the decoder reads from an opcode-table word, under the default OPC and REGID (R66). -/
def decodeTableWord (nbits w : Nat) : Option Instr :=
  match decode Config.default (tableBytes nbits w) with
  | .ok i => some i
  | .error _ => none

end Sys2Proof
end

