-- ==== Sys2Proof/Machine/State.lean ====
section
/-! DEFINITION. The machine's state (10_state.md), the ways a step can stop, and the state after reset. -/

namespace Sys2Proof.Machine

/-- The register file: eight 32-bit registers, none hard-wired, none sharing storage (R10, R11). -/
structure RegFile where
  eax : Word
  ebx : Word
  ecx : Word
  edx : Word
  esi : Word
  edi : Word
  esp : Word
  ebp : Word
  deriving DecidableEq, Repr

/-- The five fatal conditions (R19, R125). -/
inductive FatalCode where
  /-- The opcode byte is not in the ISA table (R126). -/
  | invalidOpcode
  /-- A register field holds no register identifier (R127). -/
  | invalidRegister
  /-- DIV with a zero divisor (R128). -/
  | divideByZero
  /-- A push below the stack segment's start (R129). -/
  | stackOverflow
  /-- A pop at or above the stack segment's end (R130). -/
  | stackUnderflow
  deriving DecidableEq, Repr

/-- The run status (R19). -/
inductive Status where
  | running
  | halted
  | fatal (code : FatalCode)
  deriving DecidableEq, Repr

/-- The kind of a reported out-of-range access (R22). -/
inductive AccessKind where
  | read
  | write
  deriving DecidableEq, Repr

/-- One entry of ERRLOG (R22): the kind and the address of an out-of-range byte access. -/
structure BoundsReport where
  kind : AccessKind
  addr : Word
  deriving DecidableEq, Repr

/-- The memory's contents: the bytes that are not 0x00, by rising address. A byte not listed reads 0x00,
the value the spec gives every byte after boot (R24). The canonical form is `Memory.wf` of Machine/Ops.lean. -/
abbrev Memory := List Host.Cell

/-- The state of the machine: all the spec gives it (R10 to R24), and the configuration (R3). -/
structure State where
  /-- The eight general registers (R10, R11). -/
  regs : RegFile
  /-- The instruction pointer (R14). -/
  pc : Word
  /-- The zero flag `ZF` (R17). -/
  zf : Bool
  /-- The latched fatal error, if any: the stored part of the run status (R19, R132). -/
  fatal : Option FatalCode
  /-- The byte buffer `MEM` (R20). -/
  mem : Memory
  /-- The bounds-error report log `ERRLOG`, oldest entry first (R22). -/
  errlog : List BoundsReport
  /-- The configuration, segment boundaries included; no step changes it (R3, R21). -/
  cfg : Config
  deriving DecidableEq, Repr

/-- Why the machine stops with a fault. -/
inductive Fault where
  /-- Raised by `step` alone, when a step is asked of a machine whose status is already FATAL(code): no
  further step exists (R133, log 7). Safe: the state the fatal error left is the state of the step before. -/
  | stopped (code : FatalCode)
  deriving DecidableEq, Repr

/-- Why the model gives no meaning. -/
inductive Refusal where
  /-- An instruction without a meaning; no arm of `exec` raises it. Safe: nothing is claimed of it. -/
  | notModelled (mnemonic : String)
  /-- Raised by `step` alone, when the configuration is not legal: such a configuration gets no run (R4, log 5).
  Safe: nothing is claimed of it. -/
  | illegalConfiguration
  deriving DecidableEq, Repr

/-- Boot: fresh zero memory, the CPU in its reset state, an empty ERRLOG (R24, R151, R153, R155). -/
def State.boot (c : Config) : State where
  regs :=
    { eax := c.resetGpr, ebx := c.resetGpr, ecx := c.resetGpr, edx := c.resetGpr,
      esi := c.resetGpr, edi := c.resetGpr, esp := BitVec.ofNat 32 c.stackEnd, ebp := c.resetGpr }
  pc := BitVec.ofNat 32 c.progStart
  zf := c.resetZf
  fatal := none
  mem := []
  errlog := []
  cfg := c

/-- The machine right after reset (R24): boot under the default configuration (logs 1 to 4, 6, 9). -/
def State.reset : State := State.boot Config.default

end Sys2Proof.Machine
end

