-- ==== Sys2Proof/Machine/Ops.lean ====
section
/-! DEFINITION. The named operations over registers, memory and status: register access, comparison with a
boundary (R8), the memory unit (R30 to R39), the report channel (R131), taking a fatal error (R132), the
stack primitives (R107, R108) and push-and-jump (R115). -/

namespace Sys2Proof.Machine

/-! Comparison with a boundary (R8). -/

/-- `w <s bound`: the signed comparison of a word with a segment boundary (R8). -/
def below (w : Word) (bound : Nat) : Bool := decide (s32 w < (bound : Int))

/-- A valid address: `0 <= s32(a) < MEM_SIZE` (R31). -/
def valid (c : Config) (a : Word) : Bool := decide (0 ≤ s32 a) && below a c.memSize

/-! Registers (R10, R12). -/

/-- `x[r]`. -/
def State.reg (s : State) : Reg → Word
  | .eax => s.regs.eax
  | .ebx => s.regs.ebx
  | .ecx => s.regs.ecx
  | .edx => s.regs.edx
  | .esi => s.regs.esi
  | .edi => s.regs.edi
  | .esp => s.regs.esp
  | .ebp => s.regs.ebp

/-- The register file with one register replaced. -/
def regFileSet (f : RegFile) (r : Reg) (v : Word) : RegFile :=
  match r with
  | .eax => { f with eax := v }
  | .ebx => { f with ebx := v }
  | .ecx => { f with ecx := v }
  | .edx => { f with edx := v }
  | .esi => { f with esi := v }
  | .edi => { f with edi := v }
  | .esp => { f with esp := v }
  | .ebp => { f with ebp := v }

/-- `x[r] <- v`; any register, ESP included, is written without a check (R12, R163). -/
def State.setReg (s : State) (r : Reg) (v : Word) : State := { s with regs := regFileSet s.regs r v }

/-- `pc <- target`: no alignment, segment or range check (R16, R122). -/
def State.setPc (s : State) (target : Word) : State := { s with pc := target }

/-- `pc <- A +32 n` with `n` the length the encoding tables give the opcode (R15, R65). -/
def State.advance (s : State) (m : Mnemonic) : State := s.setPc (s.pc + BitVec.ofNat 32 m.length)

/-- `ZF <- b`. -/
def State.setZf (s : State) (b : Bool) : State := { s with zf := b }

/-! Run status and fatal entry (R19, R132, R146). -/

/-- The run status: the latch first, then `pc <s PROG_END` (R19, R146). -/
def State.status (s : State) : Status :=
  match s.fatal with
  | some code => .fatal code
  | none => if below s.pc s.cfg.progEnd then .running else .halted

/-- `raise Fatal(code)`: the status is latched and nothing else happens; pc stays at the failing
instruction (R132). There is no return from it (R133). -/
def State.raise (s : State) (code : FatalCode) : State := { s with fatal := some code }

/-- The fatal code of a decode error (R126, R127). -/
def fatalOfDecode : DecodeError → FatalCode
  | .invalidOpcode => .invalidOpcode
  | .invalidRegister => .invalidRegister

/-! The memory list. -/

/-- The byte the list holds at an address; 0x00 where it lists none (R24). -/
def Memory.get (m : Memory) (a : Nat) : Byte :=
  match m with
  | [] => 0
  | (b, v) :: rest => if a = b then v else Memory.get rest a

/-- The list without any entry at an address. -/
def Memory.erase (m : Memory) (a : Nat) : Memory := m.filter fun e => e.1 != a

/-- The list with an entry put at an address, in order. -/
def Memory.insert (m : Memory) (a : Nat) (v : Byte) : Memory :=
  match m with
  | [] => [(a, v)]
  | (b, w) :: rest =>
    if a < b then (a, v) :: (b, w) :: rest
    else if a = b then (a, v) :: rest
    else (b, w) :: Memory.insert rest a v

/-- Store a byte, keeping the canonical form: a zero byte is not listed. -/
def Memory.set (m : Memory) (a : Nat) (v : Byte) : Memory :=
  if v = 0 then Memory.erase m a else Memory.insert m a v

/-- The canonical form: strictly rising addresses, no listed byte 0x00. -/
def Memory.wf (m : Memory) : Bool := decide ((m.map Prod.fst).Pairwise (· < ·)) && m.all fun e => e.2 != 0

/-! The memory unit's four operations (R30 to R36). -/

/-- `report BoundsError(kind, addr)`: append to ERRLOG and nothing else (R22, R131). -/
def State.report (s : State) (kind : AccessKind) (a : Word) : State :=
  { s with errlog := s.errlog ++ [⟨kind, a⟩] }

/-- The byte a read of an address returns: `MEM[s32(a)]` where valid, else 0 (R33). -/
def State.peek (s : State) (a : Word) : Byte := if valid s.cfg a then Memory.get s.mem a.toNat else 0

/-- `MemRead(addr, 1)` (R33). -/
def State.readByte (s : State) (a : Word) : Byte × State :=
  (s.peek a, if valid s.cfg a then s else s.report .read a)

/-- `MemWrite(addr, 1, v)` (R34). -/
def State.writeByte (s : State) (a : Word) (v : Byte) : State :=
  if valid s.cfg a then { s with mem := Memory.set s.mem a.toNat v } else s.report .write a

/-- `MemRead(addr, 4)`: four byte reads in ascending order, little-endian (R35). -/
def State.readWord (s : State) (a : Word) : Word × State :=
  let (b0, s0) := s.readByte a
  let (b1, s1) := s0.readByte (a + 1)
  let (b2, s2) := s1.readByte (a + 2)
  let (b3, s3) := s2.readByte (a + 3)
  (wordOfBytes b0 b1 b2 b3, s3)

/-- `MemWrite(addr, 4, v)`: four byte writes in ascending order, least significant byte first (R36). -/
def State.writeWord (s : State) (a : Word) (v : Word) : State :=
  (((s.writeByte a (wordByte v 0)).writeByte (a + 1) (wordByte v 1)).writeByte (a + 2)
    (wordByte v 2)).writeByte (a + 3) (wordByte v 3)

/-- The bytes written one after another from an address on, out-of-range ones left out without a report:
how a program is placed from outside the machine (used by no instruction). -/
def State.place (s : State) (a : Word) : List Byte → State
  | [] => s
  | b :: rest =>
    State.place (if valid s.cfg a then { s with mem := Memory.set s.mem a.toNat b } else s) (a + 1) rest

/-! The stack primitives (R107, R108) and push-and-jump (R115). An `.error` carries the state a fatal error
leaves, its code latched. -/

/-- `push(v)`: decrement ESP by 4, check it against STACK_START, then write the word (R107). On overflow the
decrement stays and nothing is written. -/
def push (s : State) (v : Word) : Except State State :=
  let s1 := s.setReg .esp (s.reg .esp - 4)
  if below (s1.reg .esp) s.cfg.stackStart then .error (s1.raise .stackOverflow)
  else .ok (s1.writeWord (s1.reg .esp) v)

/-- `pop()`: check ESP against STACK_END, read the word, then increment ESP by 4 (R108). On underflow
nothing is changed but the latch. -/
def pop (s : State) : Except State (Word × State) :=
  if below (s.reg .esp) s.cfg.stackEnd then
    let (v, s1) := s.readWord (s.reg .esp)
    .ok (v, s1.setReg .esp (s1.reg .esp + 4))
  else .error (s.raise .stackUnderflow)

/-- `push_and_jump(target)`: push the instruction's own address, then set pc (R115). -/
def pushAndJump (s : State) (target : Word) : State :=
  match push s s.pc with
  | .ok s1 => s1.setPc target
  | .error f => f

end Sys2Proof.Machine
end

