-- ==== Sys2Proof/Machine/Operands.lean ====
section
/-! DEFINITION. Operand forms (R57, R90) and the arithmetic unit's results (R91 to R95). -/

namespace Sys2Proof.Machine

/-- The two source values of format ALU3, both read before the destination is written (R90). -/
def State.sources (s : State) (src1 src2 : Reg) : Word × Word := (s.reg src1, s.reg src2)

/-- The effective address of LOAD and STORE: the 32-bit field as it stands (R57). -/
def effectiveAddress (field : Word) : Word := field

/-- `a +32 b` (R91, R95). -/
def addWord (a b : Word) : Word := a + b

/-- `a -32 b` (R92, R95). -/
def subWord (a b : Word) : Word := a - b

/-- `a *32 b`: the low 32 bits of the product (R93, R95). -/
def mulWord (a b : Word) : Word := a * b

/-- The default `DIV_FN` of R94: the signed quotient rounded toward zero, its low 32 bits (so 0x80000000 by
0xFFFFFFFF gives 0x80000000). -/
def signedQuotient (a b : Word) : Word := BitVec.ofInt 32 (Int.tdiv (s32 a) (s32 b))

/-- `DIV_FN(a, b)` of the configuration, used for a non-zero divisor only (R3, R94, R95). -/
def divFn (c : Config) (a b : Word) : Word :=
  match c.divFn with
  | .signedTruncating => signedQuotient a b
  | .uninterpreted => Config.freeQuotient a b

end Sys2Proof.Machine
end

