-- ==== Sys2Proof/Machine/Flags.lean ====
section
/-! DEFINITION. The one flag, ZF (R17, R96, R104), and the two ways an ALU result is written. -/

namespace Sys2Proof.Machine

/-- The zero-flag law: true if and only if the 32-bit result is zero (R96). -/
def zeroFlag (r : Word) : Bool := r == 0

/-- An arithmetic result: the destination, then ZF from the word written (R96). -/
def State.writeArith (s : State) (dst : Reg) (r : Word) : State := (s.setReg dst r).setZf (zeroFlag r)

/-- A logic result: the destination, ZF left as it was (R104). -/
def State.writeLogic (s : State) (dst : Reg) (r : Word) : State := s.setReg dst r

end Sys2Proof.Machine
end

