-- ==== Sys2Proof/Machine/Arith.lean ====
section
/-! DEFINITION. ADD, SUB, MUL, DIV (42_arith.md). -/

namespace Sys2Proof.Machine

/-- `ADD src1, src2, dst` (R91). -/
def execAdd (src1 src2 dst : Reg) (s : State) : Host.Outcome State Fault Refusal :=
  let (a, b) := s.sources src1 src2
  .next ((s.writeArith dst (addWord a b)).advance .add)

/-- `SUB src1, src2, dst` (R92). -/
def execSub (src1 src2 dst : Reg) (s : State) : Host.Outcome State Fault Refusal :=
  let (a, b) := s.sources src1 src2
  .next ((s.writeArith dst (subWord a b)).advance .sub)

/-- `MUL src1, src2, dst` (R93). -/
def execMul (src1 src2 dst : Reg) (s : State) : Host.Outcome State Fault Refusal :=
  let (a, b) := s.sources src1 src2
  .next ((s.writeArith dst (mulWord a b)).advance .mul)

/-- `DIV src1, src2, dst`: a zero divisor is fatal, with nothing else changed (R94, R128). -/
def execDiv (src1 src2 dst : Reg) (s : State) : Host.Outcome State Fault Refusal :=
  let (a, b) := s.sources src1 src2
  if b = 0 then .next (s.raise .divideByZero)
  else .next ((s.writeArith dst (divFn s.cfg a b)).advance .div)

end Sys2Proof.Machine
end

