-- ==== Sys2Proof/Machine/Control.lean ====
section
/-! DEFINITION. JMP, JZ, JNZ, CALL, RET (45_control.md): every taken jump pushes its own address (R121). -/

namespace Sys2Proof.Machine

/-- `JMP addr32` (R116). -/
def execJmp (target : Word) (s : State) : Host.Outcome State Fault Refusal := .next (pushAndJump s target)

/-- `JZ addr32`: taken if ZF is true; untaken it pushes nothing (R117). -/
def execJz (target : Word) (s : State) : Host.Outcome State Fault Refusal :=
  .next (if s.zf then pushAndJump s target else s.advance .jz)

/-- `JNZ addr32`: taken if ZF is false; untaken it pushes nothing (R118). -/
def execJnz (target : Word) (s : State) : Host.Outcome State Fault Refusal :=
  .next (if s.zf then s.advance .jnz else pushAndJump s target)

/-- `CALL addr32`: as JMP (R119). -/
def execCall (target : Word) (s : State) : Host.Outcome State Fault Refusal := .next (pushAndJump s target)

/-- `RET`: pop a word and go to it plus 8; its own length is never added (R120). -/
def execRet (s : State) : Host.Outcome State Fault Refusal :=
  match pop s with
  | .ok (v, s1) => .next (s1.setPc (v + 8))
  | .error f => .next f

end Sys2Proof.Machine
end

