-- ==== Sys2Proof/Machine/LoadStore.lean ====
section
/-! DEFINITION. LOAD and STORE (41_load_store.md): one word access, never fatal on account of its address. -/

namespace Sys2Proof.Machine

/-- `LOAD dst, addr32` (R85). -/
def execLoad (dst : Reg) (addr : Word) (s : State) : Host.Outcome State Fault Refusal :=
  let (v, s1) := s.readWord (effectiveAddress addr)
  .next ((s1.setReg dst v).advance .load)

/-- `STORE src, addr32` (R86). -/
def execStore (src : Reg) (addr : Word) (s : State) : Host.Outcome State Fault Refusal :=
  .next ((s.writeWord (effectiveAddress addr) (s.reg src)).advance .store)

end Sys2Proof.Machine
end

