-- ==== Sys2Proof/Machine/Logic.lean ====
section
/-! DEFINITION. AND, OR, XOR, NOT (43_logic.md): ZF is neither read nor written (R104). -/

namespace Sys2Proof.Machine

/-- `AND src1, src2, dst` (R100). -/
def execAnd (src1 src2 dst : Reg) (s : State) : Host.Outcome State Fault Refusal :=
  let (a, b) := s.sources src1 src2
  .next ((s.writeLogic dst (a &&& b)).advance .and)

/-- `OR src1, src2, dst` (R101). -/
def execOr (src1 src2 dst : Reg) (s : State) : Host.Outcome State Fault Refusal :=
  let (a, b) := s.sources src1 src2
  .next ((s.writeLogic dst (a ||| b)).advance .or)

/-- `XOR src1, src2, dst` (R102). -/
def execXor (src1 src2 dst : Reg) (s : State) : Host.Outcome State Fault Refusal :=
  let (a, b) := s.sources src1 src2
  .next ((s.writeLogic dst (a ^^^ b)).advance .xor)

/-- `NOT reg`: complement in place (R103). -/
def execNot (r : Reg) (s : State) : Host.Outcome State Fault Refusal :=
  .next ((s.writeLogic r (~~~ s.reg r)).advance .not)

end Sys2Proof.Machine
end

