-- ==== Sys2Proof/Machine/Move.lean ====
section
/-! DEFINITION. MOV and MOVI (40_move.md). -/

namespace Sys2Proof.Machine

/-- `MOV dst, src` (R80). -/
def execMov (dst src : Reg) (s : State) : Host.Outcome State Fault Refusal :=
  .next ((s.setReg dst (s.reg src)).advance .mov)

/-- `MOVI dst, imm32` (R81). -/
def execMovi (dst : Reg) (imm : Word) (s : State) : Host.Outcome State Fault Refusal :=
  .next ((s.setReg dst imm).advance .movi)

end Sys2Proof.Machine
end

