-- ==== Sys2Proof/Machine/Stack.lean ====
section
/-! DEFINITION. PUSH and POP (44_stack.md). -/

namespace Sys2Proof.Machine

/-- `PUSH reg`: the value is read before the stack pointer moves, so `PUSH ESP` stores the old ESP (R109). -/
def execPush (r : Reg) (s : State) : Host.Outcome State Fault Refusal :=
  match push s (s.reg r) with
  | .ok s1 => .next (s1.advance .push)
  | .error f => .next f

/-- `POP reg`: the register is written after the increment, so `POP ESP` leaves the popped word (R110). -/
def execPop (r : Reg) (s : State) : Host.Outcome State Fault Refusal :=
  match pop s with
  | .ok (v, s1) => .next ((s1.setReg r v).advance .pop)
  | .error f => .next f

end Sys2Proof.Machine
end

