-- ==== Sys2Proof/Machine/Dispatch.lean ====
section
/-! DEFINITION. One instruction's execution: one arm per constructor, one meaning per arm. -/

namespace Sys2Proof.Machine

def exec (i : Instr) (s : State) : Host.Outcome State Fault Refusal :=
  match i with
  | .mov dst src => Sys2Proof.Machine.execMov dst src s
  | .movi dst imm => Sys2Proof.Machine.execMovi dst imm s
  | .load dst addr => Sys2Proof.Machine.execLoad dst addr s
  | .store src addr => Sys2Proof.Machine.execStore src addr s
  | .add src1 src2 dst => Sys2Proof.Machine.execAdd src1 src2 dst s
  | .sub src1 src2 dst => Sys2Proof.Machine.execSub src1 src2 dst s
  | .mul src1 src2 dst => Sys2Proof.Machine.execMul src1 src2 dst s
  | .div src1 src2 dst => Sys2Proof.Machine.execDiv src1 src2 dst s
  | .and src1 src2 dst => Sys2Proof.Machine.execAnd src1 src2 dst s
  | .or src1 src2 dst => Sys2Proof.Machine.execOr src1 src2 dst s
  | .xor src1 src2 dst => Sys2Proof.Machine.execXor src1 src2 dst s
  | .not r => Sys2Proof.Machine.execNot r s
  | .push r => Sys2Proof.Machine.execPush r s
  | .pop r => Sys2Proof.Machine.execPop r s
  | .jmp target => Sys2Proof.Machine.execJmp target s
  | .jz target => Sys2Proof.Machine.execJz target s
  | .jnz target => Sys2Proof.Machine.execJnz target s
  | .call target => Sys2Proof.Machine.execCall target s
  | .ret => Sys2Proof.Machine.execRet s

end Sys2Proof.Machine
end

