-- ==== Sys2Proof/Machine/Fetch.lean ====
section
/-! DEFINITION. Fetching and decoding at pc (R64, R145): the bytes from pc on through the ordinary memory
read, the reports those reads make, and the instruction. -/

namespace Sys2Proof.Machine

/-- The address of byte `off` of the instruction at pc: modulo 2^32 (R64). -/
def State.operandAddr (s : State) (off : Nat) : Word := s.pc + BitVec.ofNat 32 off

/-- The eight bytes from pc on, as reads of them return (R33, R47). -/
def State.window (s : State) : List Byte := (List.range 8).map fun i => s.peek (s.operandAddr i)

/-- The byte reads at the given offsets, in order, for the reports they make (R33, R64). -/
def State.fetchReads (s : State) : List Nat → State
  | [] => s
  | off :: rest => State.fetchReads (s.readByte (s.operandAddr off)).2 rest

/-- Fetch and decode (R64): the result, and the state after the bytes the decode asked for were read. -/
def State.fetch (s : State) : Except DecodeError Instr × State :=
  let d := decodeTrace s.cfg s.window
  (d.result, s.fetchReads d.reads)

end Sys2Proof.Machine
end

