-- ==== Sys2Proof/Machine/Step.lean ====
section
/-! DEFINITION. One step of the fetch-decode-execute loop (R145), and placing an instruction at pc. -/

namespace Sys2Proof.Machine

/-- One step (R145): a latched fatal error has no further step (R133, log 7); a halted machine does not
change (R147, log 8); a running one fetches, decodes and executes. An illegal configuration gets no run (R4). -/
def step (s : State) : Host.Outcome State Fault Refusal :=
  if s.cfg.legal then
    match s.status with
    | .fatal code => .fault (.stopped code)
    | .halted => .next s
    | .running =>
      match s.fetch with
      | (.ok i, s1) => exec i s1
      | (.error e, s1) => .next (s1.raise (fatalOfDecode e))
  else .refused .illegalConfiguration

/-- The state with an instruction's eight bytes stored at pc, where `step` fetches (log 2). -/
def State.withFetchWord (s : State) (nbits w : Nat) : State := s.place s.pc (tableBytes nbits w)

end Sys2Proof.Machine
end

