-- ==== Sys2Proof/Machine/Loader.lean ====
section
/-! DEFINITION. The host's operations other than running (R151 to R155): CPU reset, memory reset, and loading
an assembled image. None of them is a step. -/

namespace Sys2Proof.Machine

/-- What the assembler hands to the loader (R25): the data words, the code bytes laid out from
`PROG_START + 8` on (R76), and the address of the `.start` label (R75). -/
structure Image where
  data : List Word
  code : List Byte
  start : Word
  deriving DecidableEq, Repr

/-- CPU reset: ESP, pc, the other registers, ZF and the latch; memory and ERRLOG stay (R151). -/
def State.cpuReset (s : State) : State := { State.boot s.cfg with mem := s.mem, errlog := s.errlog }

/-- Memory reset: every byte 0x00, nothing else (R152). -/
def State.memReset (s : State) : State := { s with mem := [] }

/-- The address of the first assembled instruction: the entry slot is left free (R76). -/
def codeStart (c : Config) : Nat := c.progStart + 8

/-- The end the loader seals for an image: one past its last code byte (R76). -/
def sealedEnd (c : Config) (im : Image) : Nat := codeStart c + im.code.length

/-- The image fits the program segment (R76, R78). -/
def Image.fits (c : Config) (im : Image) : Bool := decide (sealedEnd c im ≤ c.programSize)

/-- Words written one after another from an address on (R69). -/
def State.writeWords (s : State) (a : Word) : List Word → State
  | [] => s
  | w :: rest => State.writeWords (s.writeWord a w) (a + 4) rest

/-- Bytes written one after another from an address on (R70). -/
def State.writeBytes (s : State) (a : Word) : List Byte → State
  | [] => s
  | b :: rest => State.writeBytes (s.writeByte a b) (a + 1) rest

/-- `PROG_END` sealed to a value (R76). -/
def State.sealEnd (s : State) (n : Nat) : State := { s with cfg := { s.cfg with progEnd := n } }

/-- Load an image: the data words, the code, the sealed end, then the entry instruction `CALL start` over the
first bytes of the program segment (R69, R70, R75, R76). An image that does not fit is not loaded (R76). -/
def load (s : State) (im : Image) : Option State :=
  if im.fits s.cfg then
    let s1 := s.writeWords (BitVec.ofNat 32 s.cfg.dataStart) im.data
    let s2 := s1.writeBytes (BitVec.ofNat 32 (codeStart s.cfg)) im.code
    let s3 := s2.sealEnd (sealedEnd s.cfg im)
    some (s3.writeBytes (BitVec.ofNat 32 s.cfg.progStart) (encode s.cfg (.call im.start)))
  else none

end Sys2Proof.Machine
end

