-- ==== Sys2Proof/Machine/Assembler.lean ====
section
/-! DEFINITION. The assembler (R67 to R78): the toolchain that makes the launch image. It is not part of the
CPU; no step calls it. The points the spec leaves open are logs 12, 13 and 14. -/

namespace Sys2Proof.Machine

/-- Assembler errors, all raised before the CPU's first step (R78). -/
inductive AsmError where
  /-- Wrong operand count or shape, or an integer out of range (R78, D14). -/
  | malformedInstruction
  /-- The opcode mnemonic is unknown (R78). -/
  | unknownMnemonic
  /-- A data line is not `NAME = INTEGER` (R69, R78). -/
  | malformedData
  /-- A symbol used before it is declared, or a register name that is unknown (R71, R72, R78). -/
  | unresolvedSymbol
  /-- There is no `.start` directive (R75). -/
  | missingStart
  /-- The image is longer than the program segment (R76). -/
  | imageTooLong
  /-- A directive line without exactly one name, or code before the first directive (log 13). -/
  | malformedLine
  deriving DecidableEq, Repr

/-- The section state of R68. -/
inductive Section where
  | none
  | data
  | start
  | function
  deriving DecidableEq, Repr

/-- What the single top-to-bottom pass carries (R68): the section, the data symbols and their values (R69),
the labels and their addresses (R68), newest first, the data words and the code bytes, in order. -/
structure Pass where
  sect : Section
  symbols : List (String × Word)
  labels : List (String × Word)
  data : List Word
  code : List Byte
  deriving DecidableEq, Repr

/-- An operand token resolved (R72). -/
inductive Operand where
  | num (w : Word)
  | reg (r : Reg)
  deriving DecidableEq, Repr

/-! Lines and tokens (R67). -/

/-- Split a list of characters at the ones a test picks, keeping empty parts. -/
def splitOn (sep : Char → Bool) : List Char → List (List Char)
  | [] => [[]]
  | c :: rest =>
    let parts := splitOn sep rest
    if sep c then [] :: parts
    else match parts with
      | p :: ps => (c :: p) :: ps
      | [] => [[c]]

/-- White space inside a line (log 13). -/
def isBlank (c : Char) : Bool := c == ' ' || c == '\t' || c == '\r'

/-- The tokens of a line: the comment discarded, then split on white space (R67). A comma is a character like any
other here, as data and directive lines have it. -/
def tokens (line : List Char) : List String :=
  ((splitOn isBlank (line.takeWhile (· != ';'))).filter (· != [])).map String.ofList

/-- The tokens of an instruction line, the only lines in which R67 discards the commas. -/
def instrTokens (line : List Char) : List String := tokens (line.filter (· != ','))

/-- A data line with its `=` set apart (log 13). -/
def spaceEquals (line : List Char) : List Char :=
  line.flatMap fun c => if c == '=' then [' ', '=', ' '] else [c]

/-! Integers and names (R69, R72, R73). -/

/-- The value of a decimal digit. -/
def digitVal (c : Char) : Option Nat := if c.isDigit then some (c.toNat - 48) else none

/-- The value of a non-empty list of decimal digits. -/
def decimal (cs : List Char) : Option Nat :=
  if cs = [] then none
  else cs.foldl (fun acc c => do let n ← acc; let d ← digitVal c; some (10 * n + d)) (some 0)

/-- An integer: an optional `-` and decimal digits (R69). -/
def parseInt (tok : String) : Option Int :=
  match tok.toList with
  | '-' :: cs => (decimal cs).map fun n => -(n : Int)
  | cs => (decimal cs).map fun n => (n : Int)

/-- The integers a word stands for: -2^31 to 2^31 - 1, as two's complement (R69). -/
def wordOfInt (n : Int) : Option Word :=
  if -(2 ^ 31) ≤ n ∧ n < 2 ^ 31 then some (BitVec.ofInt 32 n) else none

/-- The assembler names of the registers (R11). -/
def regName : Reg → String
  | .eax => "EAX"
  | .ebx => "EBX"
  | .ecx => "ECX"
  | .edx => "EDX"
  | .esi => "ESI"
  | .edi => "EDI"
  | .esp => "ESP"
  | .ebp => "EBP"

/-- Resolve an operand token: an integer, else a register name, else a data symbol, else a label (R72). -/
def resolve (p : Pass) (tok : String) : Except AsmError Operand :=
  match parseInt tok with
  | some n =>
    match wordOfInt n with
    | some w => .ok (.num w)
    | none => .error .malformedInstruction
  | none =>
    match Reg.all.find? fun r => regName r == tok with
    | some r => .ok (.reg r)
    | none =>
      match p.symbols.lookup tok with
      | some w => .ok (.num w)
      | none =>
        match p.labels.lookup tok with
        | some w => .ok (.num w)
        | none => .error .unresolvedSymbol

/-! Instruction lines (R70, R73, R74). -/

/-- The operands of a three-register instruction, or of its two-operand form `src1 = dst` (R73, R74). -/
def alu3Line (f : Reg → Reg → Reg → Instr) : List Operand → Except AsmError Instr
  | [.reg s1, .reg s2, .reg d] => .ok (f s1 s2 d)
  | [.reg r, .reg s] => .ok (f r s r)
  | _ => .error .malformedInstruction

/-- The operands of a one-register instruction (R73). -/
def r1Line (f : Reg → Instr) : List Operand → Except AsmError Instr
  | [.reg r] => .ok (f r)
  | _ => .error .malformedInstruction

/-- The operands of `LOAD` and `STORE` (R73). -/
def addrLine (f : Reg → Word → Instr) : List Operand → Except AsmError Instr
  | [.reg r, .num a] => .ok (f r a)
  | _ => .error .malformedInstruction

/-- The operand of a jump or call (R73). -/
def jumpLine (f : Word → Instr) : List Operand → Except AsmError Instr
  | [.num t] => .ok (f t)
  | _ => .error .malformedInstruction

/-- The operands of `MOV`, which stands for both move opcodes (R73). -/
def movLine : List Operand → Except AsmError Instr
  | [.reg d, .reg s] => .ok (.mov d s)
  | [.reg d, .num n] => .ok (.movi d n)
  | _ => .error .malformedInstruction

/-- `RET` has no operand (R73). -/
def retLine : List Operand → Except AsmError Instr
  | [] => .ok .ret
  | _ => .error .malformedInstruction

/-- How each mnemonic of R73 reads its operands. -/
def lineOf (op : String) : Option (List Operand → Except AsmError Instr) :=
  ([("MOV", movLine), ("LOAD", addrLine .load), ("STORE", addrLine .store),
    ("ADD", alu3Line .add), ("SUB", alu3Line .sub), ("MUL", alu3Line .mul), ("DIV", alu3Line .div),
    ("AND", alu3Line .and), ("OR", alu3Line .or), ("XOR", alu3Line .xor),
    ("NOT", r1Line .not), ("PUSH", r1Line .push), ("POP", r1Line .pop),
    ("JMP", jumpLine .jmp), ("JZ", jumpLine .jz), ("JNZ", jumpLine .jnz), ("CALL", jumpLine .call),
    ("RET", retLine)] : List (String × (List Operand → Except AsmError Instr))).lookup op

/-- One instruction line: opcode, then operands (R67, R70). DESIGN CHOICE: of several errors in one line the first of
this order is given: the mnemonic, then the operands from left to right, then their count and shape (log 16). -/
def instrLine (p : Pass) (op : String) (args : List String) : Except AsmError Instr :=
  match lineOf op with
  | none => .error .unknownMnemonic
  | some read => do
    let operands ← args.mapM (resolve p)
    read operands

/-! The pass (R68 to R71). -/

/-- The address the next code byte goes to (R70, R76). -/
def Pass.address (c : Config) (p : Pass) : Word := BitVec.ofNat 32 (codeStart c + p.code.length)

/-- A directive line (R68); `name` is what follows the `.`. DESIGN CHOICE: any token is a name (log 15). -/
def directive (c : Config) (p : Pass) (name : String) : Pass :=
  if name == "data" then { p with sect := .data }
  else
    { p with
      sect := if name == "start" then .start else .function
      labels := (name, p.address c) :: p.labels }

/-- A data line (R69). DESIGN CHOICE: any token but `=` is a name (log 15). -/
def dataLine (p : Pass) : List String → Except AsmError Pass
  | [name, eq, int] =>
    if eq == "=" && name != "=" then
      match (parseInt int).bind wordOfInt with
      | some w => .ok { p with symbols := (name, w) :: p.symbols, data := p.data ++ [w] }
      | none => .error .malformedData
    else .error .malformedData
  | _ => .error .malformedData

/-- A line of the Start and Function sections: an instruction, or nothing (R67, R70). -/
def codeLine (c : Config) (p : Pass) : List String → Except AsmError Pass
  | [] => .ok p
  | op :: args => do
    let i ← instrLine p op args
    .ok { p with code := p.code ++ encode c i }

/-- One line of source text (R67 to R70). -/
def asmLine (c : Config) (p : Pass) (line : List Char) : Except AsmError Pass :=
  match tokens line with
  | [] => .ok p
  | word :: rest =>
    match word.toList with
    | '.' :: name =>
      if name = [] ∨ rest ≠ [] then .error .malformedLine else .ok (directive c p (String.ofList name))
    | _ =>
      match p.sect with
      | .none => .error .malformedLine
      | .data => dataLine p (tokens (spaceEquals line))
      | .start | .function => codeLine c p (instrTokens line)

/-- The whole pass over the lines, first to last (R68). -/
def asmLines (c : Config) (p : Pass) : List (List Char) → Except AsmError Pass
  | [] => .ok p
  | line :: rest => do
    let p' ← asmLine c p line
    asmLines c p' rest

/-- Assemble a source text to an image, or fail (R67 to R78). -/
def assemble (c : Config) (text : String) : Except AsmError Image := do
  let p ← asmLines c ⟨.none, [], [], [], []⟩ (splitOn (· == '\n') text.toList)
  match p.labels.lookup "start" with
  | none => .error .missingStart
  | some a => .ok ⟨p.data, p.code, a⟩

/-- `loadProgram(sourceText)` (R153, R155): the loaded state, or an error, and then the machine must not be
run: no partial image is executed (R78). -/
def loadProgram (s : State) (text : String) : Except AsmError State := do
  let im ← assemble s.cfg text
  match load s im with
  | some s' => .ok s'
  | none => .error .imageTooLong

end Sys2Proof.Machine
end

