-- ==== Sys2Proof/Safety.lean ====
section
/-! DEFINITION. The words claims are stated in: the invariant of a state, what an instruction leaves
unchanged, the reports an access makes, and how a run ends (R131, R156). -/

namespace Sys2Proof.Machine

/-- The invariant of a state: a legal configuration (R4), memory in canonical form and inside the buffer
(R20), and in ERRLOG only addresses that are out of range (R22, R131). -/
def State.wf (s : State) : Bool :=
  s.cfg.legal && Memory.wf s.mem && (s.mem.all fun e => decide (e.1 < s.cfg.memSize)) &&
    (s.errlog.all fun r => !valid s.cfg r.addr)

/-- Every register but the ones listed has the value it had. -/
def SameRegs (s t : State) (changed : List Reg) : Prop := ∀ r, r ∉ changed → t.reg r = s.reg r

/-- Every byte of memory reads as it did. -/
def SameMem (s t : State) : Prop := ∀ a, t.peek a = s.peek a

/-- The four byte addresses of the word at an address, modulo 2^32 (R35). -/
def wordAddrs (a : Word) : List Word := [a, a + 1, a + 2, a + 3]

/-- Every byte of memory outside the word at `a` reads as it did. -/
def SameMemOutside (s t : State) (a : Word) : Prop := ∀ b, b ∉ wordAddrs a → t.peek b = s.peek b

/-- The word the four bytes at an address make (R35). -/
def State.peekWord (s : State) (a : Word) : Word :=
  wordOfBytes (s.peek a) (s.peek (a + 1)) (s.peek (a + 2)) (s.peek (a + 3))

/-- The reports byte accesses at the given addresses make: one per out-of-range byte, in order (R39, R131). -/
def reportsOf (c : Config) (kind : AccessKind) (as : List Word) : List BoundsReport :=
  (as.filter fun a => !valid c a).map fun a => ⟨kind, a⟩

/-- The state with entries appended to ERRLOG. -/
def State.addReports (s : State) (l : List BoundsReport) : State := { s with errlog := s.errlog ++ l }

/-- The state with another ERRLOG. -/
def State.withErrlog (s : State) (l : List BoundsReport) : State := { s with errlog := l }

/-- Pop `n` words, first popped first, if none underflows (R112). -/
def popMany : Nat → State → Except State (List Word × State)
  | 0, s => .ok ([], s)
  | n + 1, s => do
    let (v, s1) ← pop s
    let (vs, s2) ← popMany n s1
    .ok (v :: vs, s2)

/-- Push words in order, if none overflows (R112). -/
def pushMany : List Word → State → Except State State
  | [], s => .ok s
  | v :: vs, s => do
    let s1 ← push s v
    pushMany vs s1

/-- A run ends normally (R156, case 1): after some steps the status is HALTED. -/
def EndsHalted (s t : State) : Prop := ∃ n, Host.Core.run Sys2Proof.core n s = .next t ∧ t.status = .halted

/-- A run ends in a fatal error (R156, case 2). -/
def EndsFatal (s t : State) (code : FatalCode) : Prop :=
  ∃ n, Host.Core.run Sys2Proof.core n s = .next t ∧ t.status = .fatal code

/-- A run ended without anomaly: HALTED with an empty ERRLOG (R131). -/
def EndsClean (s t : State) : Prop := EndsHalted s t ∧ t.errlog = []

end Sys2Proof.Machine
end

