-- ==== Sys2Proof/Certificates/Slice0/Obligations.lean ====
section
/-! DEFINITION. The statements for the provers. Each names the rule of spec/ it formalises; the helper
propositions of `Sys2Proof.Claims` say what several statements share. -/

open Sys2Proof Sys2Proof.Machine

namespace Sys2Proof.Claims

/-! Formats. Each says: the length, the default opcode byte, and, under every legal configuration and whatever
the pads and the bytes after the instruction, what decodes and what raises InvalidRegister. -/

/-- The byte is no register identifier (R58). -/
def NotRegister (c : Config) (b : Byte) : Prop := ∀ r, c.regByte r ≠ b

/-- Format RR (R51). -/
def FormatRR (m : Mnemonic) (op : Byte) (f : Reg → Reg → Instr) : Prop :=
  m.length = 4 ∧ Config.default.opcByte m = op ∧ ∀ c : Config, c.legal = true → ∀ (p3 : Byte) (rest : List Byte),
    (∀ d s, decode c (c.opcByte m :: c.regByte d :: c.regByte s :: p3 :: rest) = .ok (f d s)) ∧
    (∀ b1 b2, NotRegister c b1 ∨ NotRegister c b2 →
      decode c (c.opcByte m :: b1 :: b2 :: p3 :: rest) = .error .invalidRegister)

/-- Format RI (R52). -/
def FormatRI (m : Mnemonic) (op : Byte) (f : Reg → Word → Instr) : Prop :=
  m.length = 8 ∧ Config.default.opcByte m = op ∧ ∀ c : Config, c.legal = true → ∀ (p2 p3 : Byte) (rest : List Byte),
    (∀ r (i0 i1 i2 i3 : Byte), decode c (c.opcByte m :: c.regByte r :: p2 :: p3 :: i0 :: i1 :: i2 :: i3 :: rest) =
      .ok (f r (wordOfBytes i0 i1 i2 i3))) ∧
    (∀ b1, NotRegister c b1 → decode c (c.opcByte m :: b1 :: p2 :: p3 :: rest) = .error .invalidRegister)

/-- Format ALU3 (R53). -/
def FormatALU3 (m : Mnemonic) (op : Byte) (f : Reg → Reg → Reg → Instr) : Prop :=
  m.length = 4 ∧ Config.default.opcByte m = op ∧ ∀ c : Config, c.legal = true → ∀ rest : List Byte,
    (∀ s1 s2 d, decode c (c.opcByte m :: c.regByte s1 :: c.regByte s2 :: c.regByte d :: rest) = .ok (f s1 s2 d)) ∧
    (∀ b1 b2 b3, NotRegister c b1 ∨ NotRegister c b2 ∨ NotRegister c b3 →
      decode c (c.opcByte m :: b1 :: b2 :: b3 :: rest) = .error .invalidRegister)

/-- Format R1 (R54). -/
def FormatR1 (m : Mnemonic) (op : Byte) (f : Reg → Instr) : Prop :=
  m.length = 4 ∧ Config.default.opcByte m = op ∧ ∀ c : Config, c.legal = true → ∀ (p2 p3 : Byte) (rest : List Byte),
    (∀ r, decode c (c.opcByte m :: c.regByte r :: p2 :: p3 :: rest) = .ok (f r)) ∧
    (∀ b1, NotRegister c b1 → decode c (c.opcByte m :: b1 :: p2 :: p3 :: rest) = .error .invalidRegister)

/-- Format J (R55). -/
def FormatJ (m : Mnemonic) (op : Byte) (f : Word → Instr) : Prop :=
  m.length = 8 ∧ Config.default.opcByte m = op ∧ ∀ c : Config, c.legal = true →
    ∀ (p1 p2 p3 i0 i1 i2 i3 : Byte) (rest : List Byte),
      decode c (c.opcByte m :: p1 :: p2 :: p3 :: i0 :: i1 :: i2 :: i3 :: rest) = .ok (f (wordOfBytes i0 i1 i2 i3))

/-- Format N (R56). -/
def FormatN (m : Mnemonic) (op : Byte) (i : Instr) : Prop :=
  m.length = 4 ∧ Config.default.opcByte m = op ∧ ∀ c : Config, c.legal = true → ∀ (p1 p2 p3 : Byte) (rest : List Byte),
    decode c (c.opcByte m :: p1 :: p2 :: p3 :: rest) = .ok i

/-! Effects and frames. -/

/-- The latch, the report log and the configuration are as they were. -/
def SameRest (s t : State) : Prop := t.fatal = s.fatal ∧ t.errlog = s.errlog ∧ t.cfg = s.cfg

/-- The instruction completes: `d` gets `v`, ZF becomes `zf`, pc advances by `len`, nothing else changes. -/
def WritesRegister (i : Instr) (s : State) (d : Reg) (v : Word) (zf : Bool) (len : Word) : Prop :=
  ∃ t, exec i s = .next t ∧ t.reg d = v ∧ SameRegs s t [d] ∧ t.zf = zf ∧ t.pc = s.pc + len ∧ SameMem s t ∧
    SameRest s t

/-- The instruction completes: bit `k` of `d` becomes `bit k`, pc advances by 4, nothing else changes, ZF included. -/
def WritesBits (i : Instr) (s : State) (d : Reg) (bit : Nat → Bool) : Prop :=
  ∃ t, exec i s = .next t ∧ (∀ k < 32, (t.reg d).getLsbD k = bit k) ∧ SameRegs s t [d] ∧ t.zf = s.zf ∧
    t.pc = s.pc + 4 ∧ SameMem s t ∧ SameRest s t

/-- The instruction raises `code` and nothing else happens (R132). -/
def RaisesOnly (i : Instr) (s : State) (code : FatalCode) : Prop :=
  ∃ t, exec i s = .next t ∧ t.fatal = some code ∧ SameRegs s t [] ∧ t.zf = s.zf ∧ t.pc = s.pc ∧ SameMem s t ∧
    t.errlog = s.errlog ∧ t.cfg = s.cfg

/-- The instruction raises StackOverflow: ESP stays decremented, nothing else happens (R107, R132). -/
def RaisesOverflow (i : Instr) (s : State) : Prop :=
  ∃ t, exec i s = .next t ∧ t.fatal = some .stackOverflow ∧ t.reg .esp = s.reg .esp - 4 ∧ SameRegs s t [.esp] ∧
    t.zf = s.zf ∧ t.pc = s.pc ∧ SameMem s t ∧ t.errlog = s.errlog ∧ t.cfg = s.cfg

/-- The instruction completes: ESP decremented by 4, `v` written at the new ESP, pc at `target`, one report per
out-of-range byte of the word, nothing else (R36, R107). -/
def PushesAndGoes (i : Instr) (s : State) (v target : Word) : Prop :=
  ∃ t, exec i s = .next t ∧ t.reg .esp = s.reg .esp - 4 ∧ SameRegs s t [.esp] ∧
    (∀ k < 4, valid s.cfg (s.reg .esp - 4 + BitVec.ofNat 32 k) = true →
      t.peek (s.reg .esp - 4 + BitVec.ofNat 32 k) = wordByte v k) ∧
    SameMemOutside s t (s.reg .esp - 4) ∧ t.zf = s.zf ∧ t.pc = target ∧ t.fatal = s.fatal ∧ t.cfg = s.cfg ∧
    t.errlog = s.errlog ++ reportsOf s.cfg .write (wordAddrs (s.reg .esp - 4))

/-- The push of R107 succeeds: the decremented ESP is not below STACK_START, signed. -/
def PushFits (s : State) : Prop := (s.cfg.stackStart : Int) ≤ s32 (s.reg .esp - 4)

/-- The pop of R108 succeeds: ESP is below STACK_END, signed. -/
def PopFits (s : State) : Prop := s32 (s.reg .esp) < (s.cfg.stackEnd : Int)

/-- A jump, taken: push its own address and go to the target, or overflow (R115). -/
def TakesJump (i : Instr) (s : State) (target : Word) : Prop :=
  (PushFits s → PushesAndGoes i s s.pc target) ∧ (¬ PushFits s → RaisesOverflow i s)

/-- A jump, not taken: pc advances by 8 and nothing else happens. -/
def FallsThrough (i : Instr) (s : State) : Prop :=
  ∃ t, exec i s = .next t ∧ SameRegs s t [] ∧ t.zf = s.zf ∧ t.pc = s.pc + 8 ∧ SameMem s t ∧ SameRest s t

/-- The machine may take a step: a legal configuration and status RUNNING. -/
def Runs (s : State) : Prop := s.cfg.legal = true ∧ s.status = .running

/-- All four bytes of the word at `a` are in range. -/
def WordValid (c : Config) (a : Word) : Prop := ∀ b ∈ wordAddrs a, valid c b = true

/-- The table of R15: pc after an instruction that raises nothing. -/
def pcAfter (s : State) : Instr → Word
  | .mov _ _ | .add _ _ _ | .sub _ _ _ | .mul _ _ _ | .div _ _ _ | .and _ _ _ | .or _ _ _ | .xor _ _ _ | .not _
  | .push _ | .pop _ => s.pc + 4
  | .movi _ _ | .load _ _ | .store _ _ => s.pc + 8
  | .jmp target | .call target => target
  | .jz target => if s.zf then target else s.pc + 8
  | .jnz target => if s.zf then s.pc + 8 else target
  | .ret => s.peekWord (s.reg .esp) + 8

/-- StackOverflow, if a push would meet it (R107). -/
def pushError (s : State) : Option FatalCode :=
  if s32 (s.reg .esp - 4) < (s.cfg.stackStart : Int) then some .stackOverflow else none

/-- StackUnderflow, if a pop would meet it (R108). -/
def popError (s : State) : Option FatalCode :=
  if (s.cfg.stackEnd : Int) ≤ s32 (s.reg .esp) then some .stackUnderflow else none

/-- The execute-time fatal error an instruction meets, if any (R125, R134). -/
def executeError (s : State) : Instr → Option FatalCode
  | .div _ src2 _ => if s.reg src2 = 0 then some .divideByZero else none
  | .push _ | .jmp _ | .call _ => pushError s
  | .jz _ => if s.zf = true then pushError s else none
  | .jnz _ => if s.zf = true then none else pushError s
  | .pop _ | .ret => popError s
  | .mov _ _ | .movi _ _ | .load _ _ | .store _ _ | .add _ _ _ | .sub _ _ _ | .mul _ _ _ | .and _ _ _ | .or _ _ _
  | .xor _ _ _ | .not _ => none

end Sys2Proof.Claims

open Sys2Proof.Claims

/-! Encoding. -/

/-- R50 to R65: under every legal configuration the decoder reads back what the encoder wrote, whatever bytes
follow, and the encoding has the length of R50's table. -/
def Obligations.DecodeEncodeRoundTrip : Prop :=
  ∀ c : Config, c.legal = true → ∀ i : Instr, i.wellFormed = true → ∀ rest : List Byte,
    decode c (encode c i ++ rest) = .ok i ∧ (encode c i).length = i.mnemonic.length

/-- R50 to R64, the other direction: a decoded instruction's encoding has, at every byte that is no pad, the byte
that was decoded; and those bytes, in order, are exactly the ones decode reads. -/
def Obligations.DecodedBytesAreTheEncoding : Prop :=
  ∀ (c : Config) (bs : List Byte) (i : Instr), decode c bs = .ok i →
    (decodeTrace c bs).reads = 0 :: (i.mnemonic.format.regOffsets ++ i.mnemonic.format.fieldOffsets) ∧
      ∀ o ∈ (decodeTrace c bs).reads, byteAt (encode c i) o = byteAt bs o

/-- R62, the spec's own decision D4 (log 10): pads are written 0x00, are not read, and do not change what the bytes decode to. -/
def Obligations.PadBytesCarryNothing : Prop :=
  (∀ (c : Config) (i : Instr), ∀ o ∈ i.mnemonic.format.padOffsets, (encode c i)[o]? = some 0) ∧
  (∀ (c : Config) (bs : List Byte) (m : Mnemonic), c.mnemonicOf (byteAt bs 0) = some m →
    ∀ o ∈ m.format.padOffsets, o ∉ (decodeTrace c bs).reads) ∧
  (∀ (c : Config) (bs bs' : List Byte) (m : Mnemonic), c.mnemonicOf (byteAt bs 0) = some m →
    (∀ o, o ∉ m.format.padOffsets → byteAt bs' o = byteAt bs o) → decodeTrace c bs' = decodeTrace c bs)

/-- R60: an opcode byte outside OPC's image raises InvalidOpcode after the one byte read, nothing else changed;
under the default OPC those are 0x00 and 0x14 to 0xFF. -/
def Obligations.OpcodeOutsideTheTableIsFatal : Prop :=
  (∀ s : State, Runs s → (∀ m, s.cfg.opcByte m ≠ s.peek s.pc) →
    step s = .next ((s.addReports (reportsOf s.cfg .read [s.pc])).raise .invalidOpcode)) ∧
  (∀ b : Byte, (∀ m, Config.default.opcByte m ≠ b) ↔ (b = 0 ∨ 0x14 ≤ b.toNat))

/-- R61 (the spec's decision D19, log 10), R127: a register field with a byte outside REGID's image raises InvalidRegister, whichever field it is,
nothing changed but the reports of the reads made; the jump class and RET cannot raise it. -/
def Obligations.RegisterByteOutsideTheTableIsFatal : Prop :=
  (∀ (s : State) (m : Mnemonic), Runs s → s.cfg.mnemonicOf (s.peek s.pc) = some m →
    (∃ o ∈ m.format.regOffsets, NotRegister s.cfg (s.peek (s.operandAddr o))) →
    ∃ l, (∀ r ∈ l, r.kind = .read ∧ valid s.cfg r.addr = false) ∧
      step s = .next ((s.addReports l).raise .invalidRegister)) ∧
  (∀ (c : Config) (bs : List Byte) (m : Mnemonic), m ∈ [Mnemonic.jmp, .jz, .jnz, .call, .ret] →
    c.mnemonicOf (byteAt bs 0) = some m → decode c bs ≠ .error .invalidRegister)

/-- R59, R73: instruction words written out from the encoding tables, one of each format, and what they decode to. -/
def Obligations.TableWordsDecode : Prop :=
  decodeTableWord 32 0x00000101 = some (.mov .ebx .eax) ∧
  decodeTableWord 64 0x1234567800000102 = some (.movi .ebx 0x12345678) ∧
  decodeTableWord 64 0x0000004000000304 = some (.store .edx 0x40) ∧
  decodeTableWord 32 0x02010008 = some (.div .eax .ebx .ecx) ∧
  decodeTableWord 32 0x0000060E = some (.pop .esp) ∧
  decodeTableWord 64 0x0000002000000011 = some (.jnz 0x20) ∧
  decodeTableWord 32 0x00000013 = some .ret ∧
  decodeTableWord 32 0x00000014 = none ∧
  decodeTableWord 32 0x00000801 = none

/-! The step. -/

/-- R64, R145: when the bytes at pc decode to an instruction, a step of a running machine is that instruction's
execution, after the reports of the operand reads; and with no out-of-range read, it is the execution alone. -/
def Obligations.StepRunsDecodedInstruction : Prop :=
  ∀ (s : State) (i : Instr), Runs s → decode s.cfg s.window = .ok i → i.wellFormed = true →
    step s = exec i (s.addReports
      (reportsOf s.cfg .read ((decodeTrace s.cfg s.window).reads.map s.operandAddr))) ∧
    ((∀ o ∈ (decodeTrace s.cfg s.window).reads, valid s.cfg (s.operandAddr o) = true) → step s = exec i s)

/-- An instruction placed at pc under the default OPC and REGID runs in the very next step (the model's interface,
log 2; R47). -/
def Obligations.PlacedInstructionRunsNext : Prop :=
  ∀ (s : State) (nbits w : Nat) (i : Instr), Runs s → s.cfg.opc = defaultOpc → s.cfg.regId = defaultRegId →
    (∀ k < 8, valid s.cfg (s.operandAddr k) = true) → decodeTableWord nbits w = some i →
    step (s.withFetchWord nbits w) = exec i (s.withFetchWord nbits w) ∧
      SameRegs s (s.withFetchWord nbits w) [] ∧ (s.withFetchWord nbits w).pc = s.pc ∧
      (s.withFetchWord nbits w).zf = s.zf ∧ SameRest s (s.withFetchWord nbits w)

/-! Moves, loads and stores. -/

/-- R80: `MOV dst, src`. -/
def Obligations.MovCopiesRegister : Prop :=
  FormatRR .mov 0x01 .mov ∧ ∀ (d r : Reg) (s : State), WritesRegister (.mov d r) s d (s.reg r) s.zf 4

/-- R81: `MOVI dst, imm32`. -/
def Obligations.MoviMovesImmediate : Prop :=
  FormatRI .movi 0x02 .movi ∧ ∀ (d : Reg) (imm : Word) (s : State), WritesRegister (.movi d imm) s d imm s.zf 8

/-- R85: `LOAD dst, addr32`: one little-endian word, out-of-range bytes 0 and reported, never fatal. -/
def Obligations.LoadReadsWord : Prop :=
  FormatRI .load 0x03 .load ∧ ∀ (d : Reg) (a : Word) (s : State),
    (∀ b, valid s.cfg b = false → s.peek b = 0) ∧
    ∃ t, exec (.load d a) s = .next t ∧
      t.reg d = wordOfBytes (s.peek a) (s.peek (a + 1)) (s.peek (a + 2)) (s.peek (a + 3)) ∧ SameRegs s t [d] ∧
      t.zf = s.zf ∧ t.pc = s.pc + 8 ∧ SameMem s t ∧ t.fatal = s.fatal ∧ t.cfg = s.cfg ∧
      t.errlog = s.errlog ++ reportsOf s.cfg .read (wordAddrs a)

/-- R86: `STORE src, addr32`: one little-endian word, out-of-range bytes dropped and reported, never fatal. -/
def Obligations.StoreWritesWord : Prop :=
  FormatRI .store 0x04 .store ∧ ∀ (r : Reg) (a : Word) (s : State),
    ∃ t, exec (.store r a) s = .next t ∧
      (∀ k < 4, valid s.cfg (a + BitVec.ofNat 32 k) = true →
        t.peek (a + BitVec.ofNat 32 k) = wordByte (s.reg r) k) ∧
      (∀ b, valid s.cfg b = false → t.peek b = 0) ∧ SameMemOutside s t a ∧
      SameRegs s t [] ∧ t.zf = s.zf ∧ t.pc = s.pc + 8 ∧ t.fatal = s.fatal ∧ t.cfg = s.cfg ∧
      t.errlog = s.errlog ++ reportsOf s.cfg .write (wordAddrs a)

/-- R47, R86: a store into instruction bytes is seen by a fetch at that address right after it. -/
def Obligations.StoreIsSeenByFetch : Prop :=
  ∀ (r : Reg) (a : Word) (s : State), WordValid s.cfg a →
    ∃ t, exec (.store r a) s = .next t ∧ ∀ k < 4, byteAt (t.setPc a).window k = wordByte (s.reg r) k

/-! Arithmetic. -/

/-- R91, R95, R96: `ADD src1, src2, dst`: the exact sum modulo 2^32, signed or unsigned alike; ZF from the word written. -/
def Obligations.AddWritesWrappedSum : Prop :=
  FormatALU3 .add 0x05 .add ∧ ∀ (a b d : Reg) (s : State) (r : Word),
    r = BitVec.ofNat 32 ((s.reg a).toNat + (s.reg b).toNat) →
    WritesRegister (.add a b d) s d r (decide (r = 0)) 4 ∧ r = BitVec.ofInt 32 (s32 (s.reg a) + s32 (s.reg b))

/-- R92, R95, R96: `SUB src1, src2, dst`: `src1 - src2` modulo 2^32; ZF true exactly when the sources are equal. -/
def Obligations.SubWritesWrappedDifference : Prop :=
  FormatALU3 .sub 0x06 .sub ∧ ∀ (a b d : Reg) (s : State) (r : Word),
    r = BitVec.ofInt 32 (((s.reg a).toNat : Int) - ((s.reg b).toNat : Int)) →
    WritesRegister (.sub a b d) s d r (decide (r = 0)) 4 ∧ r = BitVec.ofInt 32 (s32 (s.reg a) - s32 (s.reg b)) ∧
      (r = 0 ↔ s.reg a = s.reg b)

/-- R93, R95, R96: `MUL src1, src2, dst`: the low 32 bits of the product, signed or unsigned alike. -/
def Obligations.MulWritesLowProduct : Prop :=
  FormatALU3 .mul 0x07 .mul ∧ ∀ (a b d : Reg) (s : State) (r : Word),
    r = BitVec.ofNat 32 ((s.reg a).toNat * (s.reg b).toNat) →
    WritesRegister (.mul a b d) s d r (decide (r = 0)) 4 ∧ r = BitVec.ofInt 32 (s32 (s.reg a) * s32 (s.reg b))

/-- R94, R96, R128: `DIV src1, src2, dst`: a zero divisor raises DivideByZero with nothing else changed; otherwise
the destination gets DIV_FN of the operands and ZF follows it. -/
def Obligations.DivDividesOrRaises : Prop :=
  FormatALU3 .div 0x08 .div ∧ ∀ (a b d : Reg) (s : State),
    (s.reg b = 0 → RaisesOnly (.div a b d) s .divideByZero) ∧
    (s.reg b ≠ 0 → WritesRegister (.div a b d) s d (divFn s.cfg (s.reg a) (s.reg b))
      (decide (divFn s.cfg (s.reg a) (s.reg b) = 0)) 4)

/-- R94's default DIV_FN (the spec's choice D7, log 9) is the signed quotient rounded toward zero, but for 0x80000000 by 0xFFFFFFFF. -/
def Obligations.DefaultQuotientTruncates : Prop :=
  ∀ (c : Config) (a b : Word), c.divFn = .signedTruncating → b ≠ 0 →
    (¬ (a = 0x80000000 ∧ b = 0xFFFFFFFF) → s32 (divFn c a b) = Int.tdiv (s32 a) (s32 b)) ∧
    ((a = 0x80000000 ∧ b = 0xFFFFFFFF) → divFn c a b = 0x80000000)

/-! Logic. -/

/-- R100: `AND src1, src2, dst`. -/
def Obligations.AndIsBitwise : Prop :=
  FormatALU3 .and 0x09 .and ∧ ∀ (a b d : Reg) (s : State),
    WritesBits (.and a b d) s d fun k => (s.reg a).getLsbD k && (s.reg b).getLsbD k

/-- R101: `OR src1, src2, dst`. -/
def Obligations.OrIsBitwise : Prop :=
  FormatALU3 .or 0x0A .or ∧ ∀ (a b d : Reg) (s : State),
    WritesBits (.or a b d) s d fun k => (s.reg a).getLsbD k || (s.reg b).getLsbD k

/-- R102: `XOR src1, src2, dst`. -/
def Obligations.XorIsBitwise : Prop :=
  FormatALU3 .xor 0x0B .xor ∧ ∀ (a b d : Reg) (s : State),
    WritesBits (.xor a b d) s d fun k => (s.reg a).getLsbD k != (s.reg b).getLsbD k

/-- R103: `NOT reg`, in place (the spec's decision D24, log 10); it equals 0xFFFFFFFF less the register, and two of them restore the value. -/
def Obligations.NotComplementsInPlace : Prop :=
  FormatR1 .not 0x0C .not ∧ ∀ (r : Reg) (s : State),
    WritesBits (.not r) s r (fun k => !(s.reg r).getLsbD k) ∧
    WritesRegister (.not r) s r (0xFFFFFFFF - s.reg r) s.zf 4 ∧
    ∃ t u, exec (.not r) s = .next t ∧ exec (.not r) t = .next u ∧ ∀ q, u.reg q = s.reg q

/-- R104: AND, OR, XOR and NOT neither read nor write ZF. -/
def Obligations.LogicIgnoresZeroFlag : Prop :=
  ∀ (i : Instr) (s : State) (z : Bool), i.mnemonic ∈ [Mnemonic.and, .or, .xor, .not] →
    ∃ t, exec i s = .next t ∧ t.zf = s.zf ∧ exec i (s.setZf z) = .next (t.setZf z)

/-- R17: ZF is written by ADD, SUB, MUL and DIV alone, read by JZ and JNZ alone. -/
def Obligations.ZeroFlagWritersAndReaders : Prop :=
  (∀ (i : Instr) (s t : State), exec i s = .next t → i.mnemonic ∉ [Mnemonic.add, .sub, .mul, .div] → t.zf = s.zf) ∧
  (∀ (a b d : Reg) (s t : State),
    (exec (.add a b d) s = .next t → t.zf = decide (t.reg d = 0)) ∧
    (exec (.sub a b d) s = .next t → t.zf = decide (t.reg d = 0)) ∧
    (exec (.mul a b d) s = .next t → t.zf = decide (t.reg d = 0)) ∧
    (exec (.div a b d) s = .next t → t.zf = if s.reg b = 0 then s.zf else decide (t.reg d = 0))) ∧
  (∀ (i : Instr) (s t : State) (z : Bool), exec i s = .next t → i.mnemonic ∉ [Mnemonic.jz, .jnz] →
    ∃ t', exec i (s.setZf z) = .next t' ∧ t'.setZf t.zf = t) ∧
  (∀ (target : Word) (s : State),
    (s.zf = true → exec (.jz target) s = exec (.jmp target) s ∧ exec (.jnz target) s = .next (s.setPc (s.pc + 8))) ∧
    (s.zf = false → exec (.jnz target) s = exec (.jmp target) s ∧ exec (.jz target) s = .next (s.setPc (s.pc + 8))))

/-! The stack. -/

/-- R109: `PUSH reg`: the value the register had before ESP moved; that this holds of `PUSH ESP` too is the spec's
own decision D15 (log 10). -/
def Obligations.PushStoresRegister : Prop :=
  FormatR1 .push 0x0D .push ∧ ∀ (r : Reg) (s : State),
    (PushFits s → PushesAndGoes (.push r) s (s.reg r) (s.pc + 4)) ∧
    (¬ PushFits s → RaisesOverflow (.push r) s)

/-- R110: `POP reg`: the word at ESP; ESP goes up by 4 unless it is the register popped into, which is the spec's own
decision D15 (log 10). -/
def Obligations.PopLoadsRegister : Prop :=
  FormatR1 .pop 0x0E .pop ∧ ∀ (r : Reg) (s : State),
    (PopFits s → ∃ t, exec (.pop r) s = .next t ∧ t.reg r = s.peekWord (s.reg .esp) ∧
      (r ≠ .esp → t.reg .esp = s.reg .esp + 4) ∧ SameRegs s t [r, .esp] ∧ t.zf = s.zf ∧ t.pc = s.pc + 4 ∧
      SameMem s t ∧ t.fatal = s.fatal ∧ t.cfg = s.cfg ∧
      t.errlog = s.errlog ++ reportsOf s.cfg .read (wordAddrs (s.reg .esp))) ∧
    (¬ PopFits s → RaisesOnly (.pop r) s .stackUnderflow)

/-- R112: N pushes and then N pops return the values in reverse order, and ESP, every other register and every
byte outside the N slots are as before. -/
def Obligations.StackIsBalancedAndLifo : Prop :=
  ∀ (s : State) (vs : List Word), s.cfg.legal = true →
    (s.cfg.stackStart : Int) + 4 * vs.length ≤ s32 (s.reg .esp) → s32 (s.reg .esp) ≤ (s.cfg.stackEnd : Int) →
    ∃ t u, pushMany vs s = .ok t ∧ t.reg .esp = s.reg .esp - BitVec.ofNat 32 (4 * vs.length) ∧
      popMany vs.length t = .ok (vs.reverse, u) ∧ SameRegs s u [] ∧ u.pc = s.pc ∧ u.zf = s.zf ∧ SameRest s u ∧
      ∀ b : Word, (b.toNat + 4 * vs.length < (s.reg .esp).toNat ∨ (s.reg .esp).toNat ≤ b.toNat) → u.peek b = s.peek b

/-- R107, R112: pushes that would drive ESP below STACK_START end in StackOverflow, and no byte below STACK_START
is changed. -/
def Obligations.PushingTooMuchOverflows : Prop :=
  ∀ (s : State) (vs : List Word), s.cfg.legal = true →
    (s.cfg.stackStart : Int) ≤ s32 (s.reg .esp) → s32 (s.reg .esp) < (s.cfg.stackStart : Int) + 4 * vs.length →
    ∃ f, pushMany vs s = .error f ∧ f.fatal = some .stackOverflow ∧
      ∀ b : Word, b.toNat < s.cfg.stackStart → f.peek b = s.peek b

/-! Control transfer. -/

/-- R115, R116: `JMP addr32`. -/
def Obligations.JmpPushesItsAddress : Prop :=
  FormatJ .jmp 0x0F .jmp ∧ ∀ (target : Word) (s : State), TakesJump (.jmp target) s target

/-- R117: `JZ addr32`. -/
def Obligations.JzJumpsOnZero : Prop :=
  FormatJ .jz 0x10 .jz ∧ ∀ (target : Word) (s : State),
    (s.zf = true → TakesJump (.jz target) s target) ∧ (s.zf = false → FallsThrough (.jz target) s)

/-- R118: `JNZ addr32`. -/
def Obligations.JnzJumpsOnNonzero : Prop :=
  FormatJ .jnz 0x11 .jnz ∧ ∀ (target : Word) (s : State),
    (s.zf = false → TakesJump (.jnz target) s target) ∧ (s.zf = true → FallsThrough (.jnz target) s)

/-- R119: `CALL addr32`, exactly as JMP. -/
def Obligations.CallPushesItsAddress : Prop :=
  FormatJ .call 0x12 .call ∧ ∀ (target : Word) (s : State),
    TakesJump (.call target) s target ∧ exec (.call target) s = exec (.jmp target) s

/-- R120: `RET`: pop a word and go to it plus 8. -/
def Obligations.RetGoesToPoppedWordPlusEight : Prop :=
  FormatN .ret 0x13 .ret ∧ ∀ s : State,
    (PopFits s → ∃ t, exec .ret s = .next t ∧ t.pc = s.peekWord (s.reg .esp) + 8 ∧ t.reg .esp = s.reg .esp + 4 ∧
      SameRegs s t [.esp] ∧ t.zf = s.zf ∧ SameMem s t ∧ t.fatal = s.fatal ∧ t.cfg = s.cfg ∧
      t.errlog = s.errlog ++ reportsOf s.cfg .read (wordAddrs (s.reg .esp))) ∧
    (¬ PopFits s → RaisesOnly .ret s .stackUnderflow)

/-- R121, R123: after a jump that is taken, a RET in any state that kept ESP and the pushed word goes to the
instruction after the jump, with ESP back at its value before it. -/
def Obligations.CallReturnSymmetry : Prop :=
  ∀ (s : State) (target : Word) (i : Instr), s.cfg.legal = true →
    (s.cfg.stackStart : Int) + 4 ≤ s32 (s.reg .esp) → s32 (s.reg .esp) ≤ (s.cfg.stackEnd : Int) →
    (i = .call target ∨ i = .jmp target ∨ (i = .jz target ∧ s.zf = true) ∨ (i = .jnz target ∧ s.zf = false)) →
    ∃ t, exec i s = .next t ∧ t.pc = target ∧
      ∀ u : State, u.cfg = t.cfg → u.reg .esp = t.reg .esp →
        u.peekWord (t.reg .esp) = t.peekWord (t.reg .esp) →
        ∃ v, exec .ret u = .next v ∧ v.pc = s.pc + 8 ∧ v.reg .esp = s.reg .esp ∧ v.errlog = u.errlog

/-- R15: how each opcode leaves pc; unchanged when the step raises, at decode or at execute. -/
def Obligations.PcAfterEachOpcode : Prop :=
  (∀ (i : Instr) (s : State), s.fatal = none →
    ∃ t, exec i s = .next t ∧ (t.fatal = none → t.pc = pcAfter s i) ∧ (t.fatal ≠ none → t.pc = s.pc)) ∧
  (∀ s t : State, Runs s → step s = .next t → t.fatal ≠ none → t.pc = s.pc)

/-! Fatal errors. -/

/-- R125, R134: the fatal error a step raises is the one its phase and opcode give: InvalidOpcode, then
InvalidRegister, then the one execute-time condition of the opcode. -/
def Obligations.FatalErrorsHaveTheirCauses : Prop :=
  ∀ s : State, Runs s → ∃ t, step s = .next t ∧
    t.fatal = match s.cfg.mnemonicOf (s.peek s.pc) with
      | none => some .invalidOpcode
      | some _ => match decode s.cfg s.window with
        | .error _ => some .invalidRegister
        | .ok i => executeError s i

/-- R132: a fatal error leaves pc, ZF, memory and the configuration as they were, and the registers too, but for
ESP decremented by StackOverflow; ERRLOG may have grown by the reads made. -/
def Obligations.FatalStepIsPrecise : Prop :=
  ∀ (s t : State) (code : FatalCode), Runs s → step s = .next t → t.fatal = some code →
    t.status = .fatal code ∧ t.pc = s.pc ∧ t.zf = s.zf ∧ SameMem s t ∧ t.mem = s.mem ∧ t.cfg = s.cfg ∧
    (code = .stackOverflow → t.reg .esp = s.reg .esp - 4 ∧ SameRegs s t [.esp]) ∧
    (code ≠ .stackOverflow → SameRegs s t []) ∧
    ∃ l, t.errlog = s.errlog ++ l ∧ ∀ r ∈ l, r.kind = .read ∧ valid s.cfg r.addr = false

/-- R19, R133: a latched fatal error is never left: no step follows it (the fault is the model's answer, log 7). -/
def Obligations.FatalStatusIsTerminal : Prop :=
  ∀ (s : State) (code : FatalCode), s.cfg.legal = true → s.fatal = some code →
    step s = .fault (.stopped code) ∧ ∀ n : Nat, Host.Core.run Sys2Proof.core (n + 1) s = .fault (.stopped code)

/-- R19, R146: with no fatal error latched the status is RUNNING exactly when pc is below PROG_END, signed and with no
lower bound, and HALTED otherwise; a latched error is the status. R146, R147: at or past the sealed end the run is
over and nothing changes (the unchanged next state is the model's answer, log 8). -/
def Obligations.HaltedMachineStaysAsItIs : Prop :=
  (∀ s : State, s.fatal = none →
    (s.status = .running ↔ s32 s.pc < (s.cfg.progEnd : Int)) ∧
    (s.status = .halted ↔ (s.cfg.progEnd : Int) ≤ s32 s.pc)) ∧
  (∀ (s : State) (code : FatalCode), s.status = .fatal code ↔ s.fatal = some code) ∧
  ∀ s : State, s.cfg.legal = true → s.fatal = none → (s.cfg.progEnd : Int) ≤ s32 s.pc →
    s.status = .halted ∧ step s = .next s ∧ ∀ n : Nat, Host.Core.run Sys2Proof.core n s = .next s

/-- R4, R133: an illegal configuration gets no run (log 5), and that and a latched fatal error (log 7) are the only
stops. -/
def Obligations.StepStopsOnlyForTheseReasons : Prop :=
  ∀ s : State,
    (s.cfg.legal = false → step s = .refused .illegalConfiguration) ∧
    (s.cfg.legal = true → s.fatal = none → ∃ t, step s = .next t)

/-! Memory and reports. -/

/-- R33: a byte read; in a word the byte is zero-extended (the spec's decision D22, log 10). -/
def Obligations.ReadByteRule : Prop :=
  (∀ (s : State) (a : Word),
    (0 ≤ s32 a ∧ s32 a < (s.cfg.memSize : Int) → s.readByte a = (Memory.get s.mem (s32 a).toNat, s)) ∧
    (¬ (0 ≤ s32 a ∧ s32 a < (s.cfg.memSize : Int)) → s.readByte a = (0, s.report .read a))) ∧
  (∀ b : Byte, (wordOfBytes b 0 0 0).toNat = b.toNat)

/-- R34: a byte write. -/
def Obligations.WriteByteRule : Prop :=
  ∀ (s : State) (a : Word) (v : Byte),
    (0 ≤ s32 a ∧ s32 a < (s.cfg.memSize : Int) →
      (s.writeByte a v).peek a = v ∧ (∀ b, b ≠ a → (s.writeByte a v).peek b = s.peek b) ∧
      SameRegs s (s.writeByte a v) [] ∧ (s.writeByte a v).pc = s.pc ∧ (s.writeByte a v).zf = s.zf ∧
      SameRest s (s.writeByte a v)) ∧
    (¬ (0 ≤ s32 a ∧ s32 a < (s.cfg.memSize : Int)) → s.writeByte a v = s.report .write a)

/-- R37: words lie in memory least significant byte first, for data and for an instruction's 32-bit field alike. -/
def Obligations.WordsAreLittleEndian : Prop :=
  (∀ (s : State) (v : Word), WordValid s.cfg (s.pc + 4) → fieldAt (s.writeWord (s.pc + 4) v).window = v) ∧
  ∀ (s : State) (a v : Word), WordValid s.cfg a →
    (∀ k < 4, ((s.writeWord a v).readByte (a + BitVec.ofNat 32 k)).1 = (v >>> (8 * k)).setWidth 8) ∧
    (v = 0x11223344 → ((s.writeWord a v).readByte a).1 = 0x44 ∧ ((s.writeWord a v).readByte (a + 1)).1 = 0x33 ∧
      ((s.writeWord a v).readByte (a + 2)).1 = 0x22 ∧ ((s.writeWord a v).readByte (a + 3)).1 = 0x11 ∧
      ((s.writeWord a v).readWord (a + 1)).1 = wordOfBytes 0x33 0x22 0x11 (s.peek (a + 4)))

/-- R48, R39: a word read gives back the word written where all four bytes are valid; otherwise it gives back each
byte that is valid and 0 for each that is not; and the three segments are disjoint and tile the buffer. -/
def Obligations.WordRoundTripAndSegments : Prop :=
  (∀ (s : State) (a v : Word), WordValid s.cfg a → ((s.writeWord a v).readWord a).1 = v) ∧
  (∀ (s : State) (a v : Word), ∀ k < 4,
    (valid s.cfg (a + BitVec.ofNat 32 k) = true → wordByte ((s.writeWord a v).readWord a).1 k = wordByte v k) ∧
    (valid s.cfg (a + BitVec.ofNat 32 k) = false → wordByte ((s.writeWord a v).readWord a).1 k = 0)) ∧
  (∀ (c : Config) (n : Nat), n < c.memSize ↔
    (c.progStart ≤ n ∧ n < c.dataStart) ∨ (c.dataStart ≤ n ∧ n < c.stackStart) ∨
      (c.stackStart ≤ n ∧ n < c.stackEnd)) ∧
  (∀ (c : Config) (n : Nat),
    ¬ ((c.progStart ≤ n ∧ n < c.dataStart) ∧ (c.dataStart ≤ n ∧ n < c.stackStart)) ∧
    ¬ ((c.dataStart ≤ n ∧ n < c.stackStart) ∧ (c.stackStart ≤ n ∧ n < c.stackEnd)) ∧
    ¬ ((c.progStart ≤ n ∧ n < c.dataStart) ∧ (c.stackStart ≤ n ∧ n < c.stackEnd)))

/-- R22, R131: ERRLOG only grows, and only by out-of-range addresses. -/
def Obligations.ReportsAreOutOfRangeAndAppended : Prop :=
  ∀ s t : State, step s = .next t → ∃ l, t.errlog = s.errlog ++ l ∧ ∀ r ∈ l, valid s.cfg r.addr = false

/-- R22: ERRLOG is output only: two machines that differ in ERRLOG alone step alike and report alike. -/
def Obligations.ReportLogIsOutputOnly : Prop :=
  ∀ (s : State) (l m : List BoundsReport),
    match step (s.withErrlog l) with
    | .next t => ∃ new, t.errlog = l ++ new ∧ step (s.withErrlog m) = .next (t.withErrlog (m ++ new))
    | .fault f => step (s.withErrlog m) = .fault f
    | .refused f => step (s.withErrlog m) = .refused f

/-- R3, R21: no step changes the configuration, segment boundaries included. -/
def Obligations.StepKeepsConfiguration : Prop := ∀ s t : State, step s = .next t → t.cfg = s.cfg

/-! The invariant. -/

/-- R4, R20, R22: every step keeps a legal configuration, memory in canonical form inside the buffer, and only
out-of-range addresses in ERRLOG. -/
def Obligations.StepKeepsWellFormedState : Prop := ∀ s t : State, s.wf = true → step s = .next t → t.wf = true

/-- R20, R24: the state after reset (sizes and PROG_END: logs 1 and 2) meets the invariant; so does boot under every
legal configuration. -/
def Obligations.ResetIsWellFormed : Prop :=
  State.reset.wf = true ∧ ∀ c : Config, c.legal = true → (State.boot c).wf = true

/-! Reset and loading. -/

/-- R24: the state after boot; RESET_GPR and the reset ZF are the configuration's (log 6). -/
def Obligations.BootState : Prop :=
  ∀ c : Config, (State.boot c).reg .esp = BitVec.ofNat 32 c.stackEnd ∧ (State.boot c).pc = 0 ∧
    (∀ r, r ≠ .esp → (State.boot c).reg r = c.resetGpr) ∧ (State.boot c).zf = c.resetZf ∧
    (∀ a, (State.boot c).peek a = 0) ∧ (State.boot c).errlog = [] ∧
    (State.boot c).status = (if 0 < c.progEnd then .running else .halted)

/-- R151, R152: CPU reset and memory reset, each with what it leaves alone (RESET_GPR and the reset ZF are the
configuration's, log 6). -/
def Obligations.HostResets : Prop :=
  ∀ s : State,
    (s.cpuReset.reg .esp = BitVec.ofNat 32 s.cfg.stackEnd ∧ s.cpuReset.pc = 0 ∧
      (∀ r, r ≠ .esp → s.cpuReset.reg r = s.cfg.resetGpr) ∧ s.cpuReset.zf = s.cfg.resetZf ∧
      s.cpuReset.fatal = none ∧ SameMem s s.cpuReset ∧ s.cpuReset.errlog = s.errlog ∧ s.cpuReset.cfg = s.cfg) ∧
    ((∀ a, s.memReset.peek a = 0) ∧ SameRegs s s.memReset [] ∧ s.memReset.pc = s.pc ∧ s.memReset.zf = s.zf ∧
      SameRest s s.memReset)

/-- R25, R69, R75, R76: loading an image that fits leaves the launch state: the entry CALL at 0, the code from 8,
the data words from DATA_START, PROG_END one past the code, and every other byte (log 14), the registers and ERRLOG as
they were; an image that does not fit is not loaded. -/
def Obligations.LoadMakesTheLaunchState : Prop :=
  ∀ (s : State) (im : Image), s.cfg.legal = true → 4 * im.data.length ≤ s.cfg.dataSize →
    (s.cfg.programSize < 8 + im.code.length → load s im = none) ∧
    (8 + im.code.length ≤ s.cfg.programSize → ∃ t, load s im = some t ∧
      (∀ k < 8, t.peek (BitVec.ofNat 32 k) = byteAt (encode s.cfg (.call im.start)) k) ∧
      (∀ k < im.code.length, t.peek (BitVec.ofNat 32 (8 + k)) = byteAt im.code k) ∧
      (∀ k < im.data.length, t.peekWord (BitVec.ofNat 32 (s.cfg.dataStart + 4 * k)) = im.data.getD k 0) ∧
      (∀ b : Word, 8 + im.code.length ≤ b.toNat →
        ¬ (s.cfg.dataStart ≤ b.toNat ∧ b.toNat < s.cfg.dataStart + 4 * im.data.length) → t.peek b = s.peek b) ∧
      t.cfg = { s.cfg with progEnd := 8 + im.code.length } ∧ t.cfg.legal = true ∧
      SameRegs s t [] ∧ t.pc = s.pc ∧ t.zf = s.zf ∧ t.fatal = s.fatal ∧ t.errlog = s.errlog)

/-- R123, R75, R25: the first step of a run from a loaded image, with a stack of one slot or more, is an enter: it
pushes the word 0 and goes to the `.start` label. -/
def Obligations.FirstStepEntersStart : Prop :=
  ∀ (c : Config) (im : Image), c.legal = true → 4 * im.data.length ≤ c.dataSize →
    8 + im.code.length ≤ c.programSize → 4 ≤ c.stackSize →
    ∃ t u, load (State.boot c) im = some t ∧ step t = .next u ∧ u.pc = im.start ∧
      u.reg .esp = BitVec.ofNat 32 (c.stackEnd - 4) ∧ u.peekWord (u.reg .esp) = 0 ∧ SameRegs t u [.esp] ∧
      u.zf = t.zf ∧ u.fatal = none ∧ u.errlog = []

/-- R68, R70, R73, R75, R76: assembled code is a sequence of encoded instructions, back to back from address 8, and
the `.start` label stands between two of them or at the end (blank characters and the like are logs 12 and 13). -/
def Obligations.AssembledCodeIsInstructions : Prop :=
  ∀ (c : Config) (text : String) (im : Image), assemble c text = .ok im →
    ∃ before after : List Instr, im.code = (before ++ after).flatMap (encode c) ∧
      im.start = BitVec.ofNat 32 (8 + (before.flatMap (encode c)).length)

/-- R71, R72, R77, R78: an instruction line with an operand that is no integer, no register name and no name declared
above it is rejected. It rests on symbols being resolved token by token, which R77 assumes and is the model's choice
(log 12): under the textual substitution of R70 a token made of declared names could become an integer. -/
def Obligations.UndeclaredNamesAreRejected : Prop :=
  ∀ (p : Pass) (op tok : String) (args : List String), tok ∈ args → parseInt tok = none →
    (∀ r, regName r ≠ tok) → p.symbols.lookup tok = none → p.labels.lookup tok = none →
    ∃ e, instrLine p op args = .error e
end

