-- ==== Sys2Proof/Laws/Decode.lean ====
section
/-! SUPPORT. The lookups of the decoder: under a legal configuration a byte names what it was made from. -/

namespace Sys2Proof

theorem Mnemonic.mem_all (m : Mnemonic) : m ∈ Mnemonic.all := by cases m <;> decide

theorem Reg.mem_all (r : Reg) : r ∈ Reg.all := by cases r <;> decide

/-- A lookup by an injective key finds the element the key belongs to. -/
theorem find?_key {α : Type} {l : List α} {f : α → Byte} (h : (l.map f).Nodup) {a : α} (ha : a ∈ l) :
    (l.find? fun x => f x == f a) = some a := by
  induction l with
  | nil => cases ha
  | cons x rest ih =>
    simp only [List.map_cons, List.nodup_cons, List.mem_map, not_exists, not_and] at h
    rw [List.find?_cons]
    rcases List.mem_cons.mp ha with rfl | hr
    · simp
    · have hx : (f x == f a) = false := by
        rw [beq_eq_false_iff_ne]
        intro e
        exact h.1 a hr e.symm
      rw [hx]
      exact ih h.2 hr

theorem Config.legal_iff (c : Config) : c.legal = true ↔
    8 ≤ c.programSize ∧ c.memSize < 2 ^ 31 ∧ c.progEnd ≤ c.dataStart ∧
      (Mnemonic.all.map c.opcByte).Nodup ∧ (Reg.all.map c.regByte).Nodup := by
  simp [Config.legal, Config.programSizeOk, Config.memSizeOk, Config.progEndOk, Config.opcOk, Config.regIdOk,
    Config.progStart, and_assoc]

/-- OPC read backwards (R60). -/
theorem Config.mnemonicOf_opcByte {c : Config} (h : c.legal = true) (m : Mnemonic) :
    c.mnemonicOf (c.opcByte m) = some m :=
  find?_key ((c.legal_iff.mp h).2.2.2.1) (Mnemonic.mem_all m)

/-- REGID read backwards (R58). -/
theorem Config.regOf_regByte {c : Config} (h : c.legal = true) (r : Reg) : c.regOf (c.regByte r) = some r :=
  find?_key ((c.legal_iff.mp h).2.2.2.2) (Reg.mem_all r)

/-- A byte names no mnemonic exactly when it is outside OPC's image (R60). -/
theorem Config.mnemonicOf_eq_none (c : Config) (b : Byte) : c.mnemonicOf b = none ↔ ∀ m, c.opcByte m ≠ b := by
  simp only [Config.mnemonicOf, List.find?_eq_none, beq_iff_eq]
  exact ⟨fun h m => h m (Mnemonic.mem_all m), fun h m _ => h m⟩

/-- A byte names no register exactly when it is outside REGID's image (R58). -/
theorem Config.regOf_eq_none (c : Config) (b : Byte) : c.regOf b = none ↔ ∀ r, c.regByte r ≠ b := by
  simp only [Config.regOf, List.find?_eq_none, beq_iff_eq]
  exact ⟨fun h r => h r (Reg.mem_all r), fun h r _ => h r⟩

/-- A mnemonic found is one the byte belongs to. -/
theorem Config.opcByte_of_mnemonicOf {c : Config} {b : Byte} {m : Mnemonic} (h : c.mnemonicOf b = some m) :
    c.opcByte m = b := by
  simpa using List.find?_some h

/-- A register found is one the byte belongs to. -/
theorem Config.regByte_of_regOf {c : Config} {b : Byte} {r : Reg} (h : c.regOf b = some r) : c.regByte r = b := by
  simpa using List.find?_some h

@[simp] theorem byteAt_cons_zero (b : Byte) (l : List Byte) : byteAt (b :: l) 0 = b := rfl

@[simp] theorem byteAt_cons_succ (b : Byte) (l : List Byte) (n : Nat) : byteAt (b :: l) (n + 1) = byteAt l n := rfl

/-- The decode of bytes whose opcode byte is known. -/
theorem decodeTrace_of_mnemonic {c : Config} {bs : List Byte} {m : Mnemonic}
    (h : c.mnemonicOf (byteAt bs 0) = some m) :
    decodeTrace c bs = Decoded.reading 0 (decodeOperands c bs m) := by
  simp [decodeTrace, h]

/-- The decode of bytes whose opcode byte is not in the table. -/
theorem decodeTrace_invalid_opcode {c : Config} {bs : List Byte} (h : c.mnemonicOf (byteAt bs 0) = none) :
    decodeTrace c bs = ⟨[0], .error .invalidOpcode⟩ := by
  simp [decodeTrace, h, Decoded.reading]

/-- A register field that names a register. -/
theorem Decoded.register_some {c : Config} {bs : List Byte} {off : Nat} {r : Reg} (next : Reg → Decoded)
    (h : c.regOf (byteAt bs off) = some r) : Decoded.register c bs off next = Decoded.reading off (next r) := by
  simp [Decoded.register, h]

/-- A register field that names none. -/
theorem Decoded.register_none {c : Config} {bs : List Byte} {off : Nat} (next : Reg → Decoded)
    (h : c.regOf (byteAt bs off) = none) :
    Decoded.register c bs off next = ⟨[off], .error .invalidRegister⟩ := by
  simp [Decoded.register, h, Decoded.reading]

end Sys2Proof
end

