-- ==== Sys2Proof/Laws/Memory.lean ====
section
/-! SUPPORT. The memory list: read after write, and the canonical form every operation keeps. -/

namespace Sys2Proof.Machine

theorem Memory.get_erase (m : Memory) (a b : Nat) :
    Memory.get (Memory.erase m a) b = if b = a then 0 else Memory.get m b := by
  induction m with
  | nil => simp [Memory.erase, Memory.get]
  | cons e rest ih =>
    obtain ⟨c, v⟩ := e
    simp only [Memory.erase] at ih ⊢
    by_cases hc : c = a
    · subst hc
      simp only [List.filter_cons, bne_self_eq_false, Bool.false_eq_true, if_false, ih, Memory.get]
      split <;> rfl
    · have hk : (c != a) = true := by simp [hc]
      simp only [List.filter_cons, hk, if_true, Memory.get, ih]
      by_cases hb : b = c
      · subst hb; simp [hc]
      · simp [hb]

theorem Memory.get_insert (m : Memory) (a b : Nat) (v : Byte) :
    Memory.get (Memory.insert m a v) b = if b = a then v else Memory.get m b := by
  induction m with
  | nil => rfl
  | cons e rest ih =>
    obtain ⟨c, w⟩ := e
    simp only [Memory.insert]
    split
    · rfl
    split
    · subst_vars; simp only [Memory.get]; split <;> rfl
    · rename_i h
      simp only [Memory.get, ih]
      by_cases hb : b = c
      · subst hb; simp [Ne.symm h]
      · simp [hb]

/-- Read after write: the byte written, and every other byte as before. -/
theorem Memory.get_set (m : Memory) (a b : Nat) (v : Byte) :
    Memory.get (Memory.set m a v) b = if b = a then v else Memory.get m b := by
  unfold Memory.set
  split
  · subst_vars; exact Memory.get_erase m a b
  · exact Memory.get_insert m a b v

theorem Memory.wf_iff (m : Memory) :
    Memory.wf m = true ↔ (m.map Prod.fst).Pairwise (· < ·) ∧ ∀ e ∈ m, e.2 ≠ 0 := by
  simp [Memory.wf]

theorem Memory.mem_insert {m : Memory} {a : Nat} {v : Byte} {e : Host.Cell}
    (h : e ∈ Memory.insert m a v) : e = (a, v) ∨ e ∈ m := by
  induction m with
  | nil => simpa [Memory.insert] using h
  | cons c rest ih =>
    obtain ⟨b, w⟩ := c
    simp only [Memory.insert] at h
    split at h
    · simpa using h
    split at h
    · simp only [List.mem_cons] at h ⊢; tauto
    · simp only [List.mem_cons] at h ⊢
      rcases h with h | h
      · exact .inr (.inl h)
      · rcases ih h with h | h
        · exact .inl h
        · exact .inr (.inr h)

/-- What is listed after a store: the byte stored, or what was listed. -/
theorem Memory.mem_set {m : Memory} {a : Nat} {v : Byte} {e : Host.Cell}
    (h : e ∈ Memory.set m a v) : e = (a, v) ∨ e ∈ m := by
  unfold Memory.set at h
  split at h
  · exact .inr (List.mem_filter.mp h).1
  · exact Memory.mem_insert h

theorem Memory.insert_sorted (m : Memory) (a : Nat) (v : Byte)
    (h : (m.map Prod.fst).Pairwise (· < ·)) : ((Memory.insert m a v).map Prod.fst).Pairwise (· < ·) := by
  induction m with
  | nil => simp [Memory.insert]
  | cons e rest ih =>
    obtain ⟨b, w⟩ := e
    simp only [List.map_cons, List.pairwise_cons] at h
    simp only [Memory.insert]
    split
    · rename_i hab
      simp only [List.map_cons, List.pairwise_cons]
      refine ⟨?_, h⟩
      intro x hx
      rcases List.mem_cons.mp hx with hx | hx
      · omega
      · have := h.1 x hx; omega
    split
    · subst_vars; simpa using h
    · simp only [List.map_cons, List.pairwise_cons]
      refine ⟨?_, ih h.2⟩
      intro x hx
      obtain ⟨e, he, rfl⟩ := List.mem_map.mp hx
      rcases Memory.mem_insert he with he | he
      · subst he; simp only; omega
      · exact h.1 _ (List.mem_map.mpr ⟨e, he, rfl⟩)

/-- A store keeps the canonical form. -/
theorem Memory.set_wf (m : Memory) (a : Nat) (v : Byte) (h : Memory.wf m = true) :
    Memory.wf (Memory.set m a v) = true := by
  rw [Memory.wf_iff] at h ⊢
  unfold Memory.set
  split
  · exact ⟨h.1.sublist (List.filter_sublist.map _), fun e he => h.2 e (List.mem_filter.mp he).1⟩
  · rename_i hv
    refine ⟨Memory.insert_sorted m a v h.1, fun e he => ?_⟩
    rcases Memory.mem_insert he with rfl | he
    · exact hv
    · exact h.2 e he

/-- The empty memory, every byte 0x00, is canonical. -/
theorem Memory.nil_wf : Memory.wf [] = true := by decide

/-- Memory right after reset is canonical. -/
theorem reset_mem_wf : Memory.wf State.reset.mem = true := by decide

end Sys2Proof.Machine
end

