-- ==== Sys2Proof/Laws/State.lean ====
section
/-! SUPPORT. One lemma per field per named update of State, and the register file's read after write. -/

namespace Sys2Proof.Machine

/-- Read after write of the register file. -/
@[simp] theorem State.setReg_reg (s : State) (r : Reg) (v : Word) (q : Reg) :
    (s.setReg r v).reg q = if q = r then v else s.reg q := by
  cases r <;> cases q <;> rfl

/-! `State.setReg`. -/

@[simp] theorem State.setReg_regs (s : State) (r : Reg) (v : Word) : (s.setReg r v).regs = regFileSet s.regs r v := rfl
@[simp] theorem State.setReg_pc (s : State) (r : Reg) (v : Word) : (s.setReg r v).pc = s.pc := rfl
@[simp] theorem State.setReg_zf (s : State) (r : Reg) (v : Word) : (s.setReg r v).zf = s.zf := rfl
@[simp] theorem State.setReg_fatal (s : State) (r : Reg) (v : Word) : (s.setReg r v).fatal = s.fatal := rfl
@[simp] theorem State.setReg_mem (s : State) (r : Reg) (v : Word) : (s.setReg r v).mem = s.mem := rfl
@[simp] theorem State.setReg_errlog (s : State) (r : Reg) (v : Word) : (s.setReg r v).errlog = s.errlog := rfl
@[simp] theorem State.setReg_cfg (s : State) (r : Reg) (v : Word) : (s.setReg r v).cfg = s.cfg := rfl
@[simp] theorem State.setReg_peek (s : State) (r : Reg) (v : Word) (b : Word) : (s.setReg r v).peek b = s.peek b := rfl

/-! `State.setPc`. -/

@[simp] theorem State.setPc_regs (s : State) (t : Word) : (s.setPc t).regs = s.regs := rfl
@[simp] theorem State.setPc_pc (s : State) (t : Word) : (s.setPc t).pc = t := rfl
@[simp] theorem State.setPc_zf (s : State) (t : Word) : (s.setPc t).zf = s.zf := rfl
@[simp] theorem State.setPc_fatal (s : State) (t : Word) : (s.setPc t).fatal = s.fatal := rfl
@[simp] theorem State.setPc_mem (s : State) (t : Word) : (s.setPc t).mem = s.mem := rfl
@[simp] theorem State.setPc_errlog (s : State) (t : Word) : (s.setPc t).errlog = s.errlog := rfl
@[simp] theorem State.setPc_cfg (s : State) (t : Word) : (s.setPc t).cfg = s.cfg := rfl
@[simp] theorem State.setPc_reg (s : State) (t : Word) (q : Reg) : (s.setPc t).reg q = s.reg q := by cases q <;> rfl
@[simp] theorem State.setPc_peek (s : State) (t : Word) (b : Word) : (s.setPc t).peek b = s.peek b := rfl

/-! `State.advance`. -/

@[simp] theorem State.advance_regs (s : State) (m : Mnemonic) : (s.advance m).regs = s.regs := rfl
@[simp] theorem State.advance_pc (s : State) (m : Mnemonic) : (s.advance m).pc = s.pc + BitVec.ofNat 32 m.length := rfl
@[simp] theorem State.advance_zf (s : State) (m : Mnemonic) : (s.advance m).zf = s.zf := rfl
@[simp] theorem State.advance_fatal (s : State) (m : Mnemonic) : (s.advance m).fatal = s.fatal := rfl
@[simp] theorem State.advance_mem (s : State) (m : Mnemonic) : (s.advance m).mem = s.mem := rfl
@[simp] theorem State.advance_errlog (s : State) (m : Mnemonic) : (s.advance m).errlog = s.errlog := rfl
@[simp] theorem State.advance_cfg (s : State) (m : Mnemonic) : (s.advance m).cfg = s.cfg := rfl
@[simp] theorem State.advance_reg (s : State) (m : Mnemonic) (q : Reg) : (s.advance m).reg q = s.reg q := by cases q <;> rfl
@[simp] theorem State.advance_peek (s : State) (m : Mnemonic) (b : Word) : (s.advance m).peek b = s.peek b := rfl

/-! `State.setZf`. -/

@[simp] theorem State.setZf_regs (s : State) (b : Bool) : (s.setZf b).regs = s.regs := rfl
@[simp] theorem State.setZf_pc (s : State) (b : Bool) : (s.setZf b).pc = s.pc := rfl
@[simp] theorem State.setZf_zf (s : State) (b : Bool) : (s.setZf b).zf = b := rfl
@[simp] theorem State.setZf_fatal (s : State) (b : Bool) : (s.setZf b).fatal = s.fatal := rfl
@[simp] theorem State.setZf_mem (s : State) (b : Bool) : (s.setZf b).mem = s.mem := rfl
@[simp] theorem State.setZf_errlog (s : State) (b : Bool) : (s.setZf b).errlog = s.errlog := rfl
@[simp] theorem State.setZf_cfg (s : State) (b : Bool) : (s.setZf b).cfg = s.cfg := rfl
@[simp] theorem State.setZf_reg (s : State) (b : Bool) (q : Reg) : (s.setZf b).reg q = s.reg q := by cases q <;> rfl
@[simp] theorem State.setZf_peek (s : State) (b : Bool) (a : Word) : (s.setZf b).peek a = s.peek a := rfl

/-! `State.raise`. -/

@[simp] theorem State.raise_regs (s : State) (c : FatalCode) : (s.raise c).regs = s.regs := rfl
@[simp] theorem State.raise_pc (s : State) (c : FatalCode) : (s.raise c).pc = s.pc := rfl
@[simp] theorem State.raise_zf (s : State) (c : FatalCode) : (s.raise c).zf = s.zf := rfl
@[simp] theorem State.raise_fatal (s : State) (c : FatalCode) : (s.raise c).fatal = some c := rfl
@[simp] theorem State.raise_mem (s : State) (c : FatalCode) : (s.raise c).mem = s.mem := rfl
@[simp] theorem State.raise_errlog (s : State) (c : FatalCode) : (s.raise c).errlog = s.errlog := rfl
@[simp] theorem State.raise_cfg (s : State) (c : FatalCode) : (s.raise c).cfg = s.cfg := rfl
@[simp] theorem State.raise_reg (s : State) (c : FatalCode) (q : Reg) : (s.raise c).reg q = s.reg q := by cases q <;> rfl
@[simp] theorem State.raise_peek (s : State) (c : FatalCode) (b : Word) : (s.raise c).peek b = s.peek b := rfl

/-! `State.report`. -/

@[simp] theorem State.report_regs (s : State) (k : AccessKind) (a : Word) : (s.report k a).regs = s.regs := rfl
@[simp] theorem State.report_pc (s : State) (k : AccessKind) (a : Word) : (s.report k a).pc = s.pc := rfl
@[simp] theorem State.report_zf (s : State) (k : AccessKind) (a : Word) : (s.report k a).zf = s.zf := rfl
@[simp] theorem State.report_fatal (s : State) (k : AccessKind) (a : Word) : (s.report k a).fatal = s.fatal := rfl
@[simp] theorem State.report_mem (s : State) (k : AccessKind) (a : Word) : (s.report k a).mem = s.mem := rfl
@[simp] theorem State.report_errlog (s : State) (k : AccessKind) (a : Word) : (s.report k a).errlog = s.errlog ++ [⟨k, a⟩] := rfl
@[simp] theorem State.report_cfg (s : State) (k : AccessKind) (a : Word) : (s.report k a).cfg = s.cfg := rfl
@[simp] theorem State.report_reg (s : State) (k : AccessKind) (a : Word) (q : Reg) : (s.report k a).reg q = s.reg q := by cases q <;> rfl
@[simp] theorem State.report_peek (s : State) (k : AccessKind) (a : Word) (b : Word) : (s.report k a).peek b = s.peek b := rfl

/-! `State.addReports`. -/

@[simp] theorem State.addReports_regs (s : State) (l : List BoundsReport) : (s.addReports l).regs = s.regs := rfl
@[simp] theorem State.addReports_pc (s : State) (l : List BoundsReport) : (s.addReports l).pc = s.pc := rfl
@[simp] theorem State.addReports_zf (s : State) (l : List BoundsReport) : (s.addReports l).zf = s.zf := rfl
@[simp] theorem State.addReports_fatal (s : State) (l : List BoundsReport) : (s.addReports l).fatal = s.fatal := rfl
@[simp] theorem State.addReports_mem (s : State) (l : List BoundsReport) : (s.addReports l).mem = s.mem := rfl
@[simp] theorem State.addReports_errlog (s : State) (l : List BoundsReport) : (s.addReports l).errlog = s.errlog ++ l := rfl
@[simp] theorem State.addReports_cfg (s : State) (l : List BoundsReport) : (s.addReports l).cfg = s.cfg := rfl
@[simp] theorem State.addReports_reg (s : State) (l : List BoundsReport) (q : Reg) : (s.addReports l).reg q = s.reg q := by cases q <;> rfl
@[simp] theorem State.addReports_peek (s : State) (l : List BoundsReport) (b : Word) : (s.addReports l).peek b = s.peek b := rfl

/-! `State.withErrlog`. -/

@[simp] theorem State.withErrlog_regs (s : State) (l : List BoundsReport) : (s.withErrlog l).regs = s.regs := rfl
@[simp] theorem State.withErrlog_pc (s : State) (l : List BoundsReport) : (s.withErrlog l).pc = s.pc := rfl
@[simp] theorem State.withErrlog_zf (s : State) (l : List BoundsReport) : (s.withErrlog l).zf = s.zf := rfl
@[simp] theorem State.withErrlog_fatal (s : State) (l : List BoundsReport) : (s.withErrlog l).fatal = s.fatal := rfl
@[simp] theorem State.withErrlog_mem (s : State) (l : List BoundsReport) : (s.withErrlog l).mem = s.mem := rfl
@[simp] theorem State.withErrlog_errlog (s : State) (l : List BoundsReport) : (s.withErrlog l).errlog = l := rfl
@[simp] theorem State.withErrlog_cfg (s : State) (l : List BoundsReport) : (s.withErrlog l).cfg = s.cfg := rfl
@[simp] theorem State.withErrlog_reg (s : State) (l : List BoundsReport) (q : Reg) : (s.withErrlog l).reg q = s.reg q := by cases q <;> rfl
@[simp] theorem State.withErrlog_peek (s : State) (l : List BoundsReport) (b : Word) : (s.withErrlog l).peek b = s.peek b := rfl

/-- The latch is what `status` shows first. -/
theorem State.status_of_fatal (s : State) (c : FatalCode) (h : s.fatal = some c) : s.status = .fatal c := by
  simp [State.status, h]

/-- RUNNING: nothing latched and pc below the sealed end (R19, R146). -/
theorem State.status_running_iff (s : State) :
    s.status = .running ↔ s.fatal = none ∧ below s.pc s.cfg.progEnd = true := by
  unfold State.status
  cases s.fatal <;> simp

/-- HALTED: nothing latched and pc not below the sealed end (R19, R147). -/
theorem State.status_halted_iff (s : State) :
    s.status = .halted ↔ s.fatal = none ∧ below s.pc s.cfg.progEnd = false := by
  unfold State.status
  cases s.fatal <;> simp

/-- Writing a register back with the value it has changes nothing. -/
theorem State.setReg_self (s : State) (r : Reg) : s.setReg r (s.reg r) = s := by
  cases r <;> rfl

/-- Two register files that agree on every register are equal. -/
theorem regs_ext {s t : State} (h : ∀ r, s.reg r = t.reg r) : s.regs = t.regs := by
  have h1 := h .eax; have h2 := h .ebx; have h3 := h .ecx; have h4 := h .edx
  have h5 := h .esi; have h6 := h .edi; have h7 := h .esp; have h8 := h .ebp
  rcases hs : s.regs with ⟨⟩
  rcases ht : t.regs with ⟨⟩
  simp_all [State.reg]

end Sys2Proof.Machine
end

