-- ==== Sys2Proof/Laws/Word.lean ====
section
/-! SUPPORT. Byte order: a word is its four bytes (R35 to R37). -/

namespace Sys2Proof

/-- Taking a word apart and putting it together gives it back. -/
theorem wordOfBytes_wordByte (w : Word) :
    wordOfBytes (wordByte w 0) (wordByte w 1) (wordByte w 2) (wordByte w 3) = w := by
  apply BitVec.eq_of_getLsbD_eq
  intro i hi
  simp only [wordOfBytes, wordByte, BitVec.getLsbD_or, BitVec.getLsbD_shiftLeft, BitVec.getLsbD_setWidth,
    BitVec.getLsbD_ushiftRight]
  rcases Nat.lt_or_ge i 8 with h | h
  · simp [h, hi, show i < 16 by omega, show i < 24 by omega]
  rcases Nat.lt_or_ge i 16 with h2 | h2
  · simp [hi, h2, show ¬ i < 8 by omega, show i < 24 by omega, show i - 8 < 8 by omega,
      show 8 + (i - 8) = i by omega, show i - 8 < 32 by omega]
  rcases Nat.lt_or_ge i 24 with h3 | h3
  · simp [hi, h3, show ¬ i < 8 by omega, show ¬ i < 16 by omega, show ¬ (i - 8 < 8) by omega,
      show i - 16 < 8 by omega, show 16 + (i - 16) = i by omega, show i - 16 < 32 by omega]
  · simp [hi, show ¬ i < 8 by omega, show ¬ i < 16 by omega, show ¬ i < 24 by omega,
      show ¬ (i - 8 < 8) by omega, show ¬ (i - 16 < 8) by omega, show i - 24 < 8 by omega,
      show 24 + (i - 24) = i by omega, show i - 24 < 32 by omega]

/-- Byte 0 of the word four bytes make is the first of them; likewise the others. -/
theorem wordByte_wordOfBytes (b0 b1 b2 b3 : Byte) :
    wordByte (wordOfBytes b0 b1 b2 b3) 0 = b0 ∧ wordByte (wordOfBytes b0 b1 b2 b3) 1 = b1 ∧
      wordByte (wordOfBytes b0 b1 b2 b3) 2 = b2 ∧ wordByte (wordOfBytes b0 b1 b2 b3) 3 = b3 := by
  refine ⟨?_, ?_, ?_, ?_⟩ <;>
  · apply BitVec.eq_of_getLsbD_eq
    intro i hi
    simp only [wordOfBytes, wordByte, BitVec.getLsbD_or, BitVec.getLsbD_shiftLeft, BitVec.getLsbD_setWidth,
      BitVec.getLsbD_ushiftRight]
    simp [hi, BitVec.getLsbD_of_ge, show i < 32 by omega, show 8 + i < 32 by omega, show 16 + i < 32 by omega,
      show 24 + i < 32 by omega, show 8 ≤ 8 + i by omega, show 8 ≤ 16 + i by omega, show i < 16 by omega,
      show i < 24 by omega, show 8 ≤ 24 + i by omega, show 8 + i < 24 by omega, show 8 + i < 16 by omega,
      show 16 + i < 24 by omega, show ¬ 16 + i < 16 by omega, show 8 ≤ 16 + i - 8 by omega,
      show 8 ≤ 24 + i - 8 by omega, show 8 ≤ 24 + i - 16 by omega, show ¬ 8 + i < 8 by omega]

end Sys2Proof
end

