-- ==== Sys2Proof/Laws/Ops.lean ====
section
/-! SUPPORT. One lemma per shared operation that says once everything it does; cite these instead of unfolding. -/

namespace Sys2Proof.Machine

/-! Reports. -/

@[simp] theorem reportsOf_nil (c : Config) (k : AccessKind) : reportsOf c k [] = [] := rfl

theorem reportsOf_cons (c : Config) (k : AccessKind) (a : Word) (l : List Word) :
    reportsOf c k (a :: l) = (if valid c a then [] else [⟨k, a⟩]) ++ reportsOf c k l := by
  unfold reportsOf
  cases h : valid c a <;> simp [h]

/-- In-range accesses make no report. -/
theorem reportsOf_eq_nil {c : Config} {k : AccessKind} {l : List Word} (h : ∀ a ∈ l, valid c a = true) :
    reportsOf c k l = [] := by
  simp only [reportsOf, List.map_eq_nil_iff, List.filter_eq_nil_iff]
  intro a ha
  simp [h a ha]

/-- Only out-of-range addresses are reported. -/
theorem mem_reportsOf {c : Config} {k : AccessKind} {l : List Word} {r : BoundsReport}
    (h : r ∈ reportsOf c k l) : valid c r.addr = false := by
  simp only [reportsOf, List.mem_map, List.mem_filter] at h
  obtain ⟨a, ⟨-, ha⟩, rfl⟩ := h
  simpa using ha

@[simp] theorem State.addReports_nil (s : State) : s.addReports [] = s := by
  simp [State.addReports]

@[simp] theorem State.addReports_addReports (s : State) (l m : List BoundsReport) :
    (s.addReports l).addReports m = s.addReports (l ++ m) := by
  simp [State.addReports]

/-! Addresses. -/

/-- A valid address indexes the buffer (R31). -/
theorem valid_toNat_lt {c : Config} {a : Word} (h : valid c a = true) : a.toNat < c.memSize := by
  simp only [valid, below, s32, Bool.and_eq_true, decide_eq_true_eq] at h
  have hlt := a.isLt
  have hs := BitVec.toInt_eq_toNat_cond a
  split at hs <;> omega

/-- Under a legal configuration the signed and the unsigned reading of "valid" agree (R31). -/
theorem valid_iff_toNat_lt {c : Config} (hc : c.memSize < 2 ^ 31) (a : Word) :
    valid c a = true ↔ a.toNat < c.memSize := by
  refine ⟨valid_toNat_lt, fun h => ?_⟩
  simp only [valid, below, s32, Bool.and_eq_true, decide_eq_true_eq]
  have hs := BitVec.toInt_eq_toNat_cond a
  split at hs <;> omega

theorem State.peek_of_not_valid {s : State} {a : Word} (h : valid s.cfg a = false) : s.peek a = 0 := by
  simp [State.peek, h]

/-! The memory unit. -/

/-- A byte read: the byte, and a report if the address is out of range (R33). -/
theorem State.readByte_spec (s : State) (a : Word) :
    s.readByte a = (s.peek a, s.addReports (reportsOf s.cfg .read [a])) := by
  unfold State.readByte
  cases h : valid s.cfg a
  · simp only [reportsOf_cons, h]; rfl
  · simp [reportsOf_cons, h]

/-- A byte write leaves everything but memory and ERRLOG (R34). -/
theorem State.writeByte_fields (s : State) (a : Word) (v : Byte) :
    (s.writeByte a v).regs = s.regs ∧ (s.writeByte a v).pc = s.pc ∧ (s.writeByte a v).zf = s.zf ∧
      (s.writeByte a v).fatal = s.fatal ∧ (s.writeByte a v).cfg = s.cfg ∧
      (s.writeByte a v).errlog = s.errlog ++ reportsOf s.cfg .write [a] := by
  unfold State.writeByte
  cases h : valid s.cfg a <;> simp [reportsOf_cons, h]

@[simp] theorem State.writeByte_regs (s : State) (a : Word) (v : Byte) : (s.writeByte a v).regs = s.regs :=
  (s.writeByte_fields a v).1
@[simp] theorem State.writeByte_pc (s : State) (a : Word) (v : Byte) : (s.writeByte a v).pc = s.pc :=
  (s.writeByte_fields a v).2.1
@[simp] theorem State.writeByte_zf (s : State) (a : Word) (v : Byte) : (s.writeByte a v).zf = s.zf :=
  (s.writeByte_fields a v).2.2.1
@[simp] theorem State.writeByte_fatal (s : State) (a : Word) (v : Byte) : (s.writeByte a v).fatal = s.fatal :=
  (s.writeByte_fields a v).2.2.2.1
@[simp] theorem State.writeByte_cfg (s : State) (a : Word) (v : Byte) : (s.writeByte a v).cfg = s.cfg :=
  (s.writeByte_fields a v).2.2.2.2.1
theorem State.writeByte_errlog (s : State) (a : Word) (v : Byte) :
    (s.writeByte a v).errlog = s.errlog ++ reportsOf s.cfg .write [a] :=
  (s.writeByte_fields a v).2.2.2.2.2

/-- What every byte reads as after a byte write (R34). -/
theorem State.writeByte_peek (s : State) (a : Word) (v : Byte) (b : Word) :
    (s.writeByte a v).peek b = if b = a ∧ valid s.cfg b = true then v else s.peek b := by
  unfold State.writeByte
  by_cases h : valid s.cfg a = true
  · simp only [h, if_true, State.peek, Memory.get_set, BitVec.toNat_inj]
    by_cases hb : b = a
    · subst hb; simp [h]
    · simp [hb]
  · rw [if_neg h, if_neg (by rintro ⟨rfl, hb⟩; exact h hb), State.report_peek]

/-- A word read: the four bytes, and one report per out-of-range byte in ascending order (R35, R39). -/
theorem State.readWord_spec (s : State) (a : Word) :
    s.readWord a = (s.peekWord a, s.addReports (reportsOf s.cfg .read (wordAddrs a))) := by
  simp only [State.readWord, State.readByte_spec, State.addReports_addReports, State.addReports_peek,
    State.addReports_cfg, State.peekWord, wordAddrs, reportsOf_cons, reportsOf_nil, List.append_assoc,
    List.append_nil]

/-- A word write leaves everything but memory and ERRLOG, and makes one report per out-of-range byte in
ascending order (R36, R39). -/
theorem State.writeWord_fields (s : State) (a v : Word) :
    (s.writeWord a v).regs = s.regs ∧ (s.writeWord a v).pc = s.pc ∧ (s.writeWord a v).zf = s.zf ∧
      (s.writeWord a v).fatal = s.fatal ∧ (s.writeWord a v).cfg = s.cfg ∧
      (s.writeWord a v).errlog = s.errlog ++ reportsOf s.cfg .write (wordAddrs a) := by
  simp [State.writeWord, State.writeByte_errlog, wordAddrs, reportsOf_cons]

@[simp] theorem State.writeWord_regs (s : State) (a v : Word) : (s.writeWord a v).regs = s.regs :=
  (s.writeWord_fields a v).1
@[simp] theorem State.writeWord_pc (s : State) (a v : Word) : (s.writeWord a v).pc = s.pc :=
  (s.writeWord_fields a v).2.1
@[simp] theorem State.writeWord_zf (s : State) (a v : Word) : (s.writeWord a v).zf = s.zf :=
  (s.writeWord_fields a v).2.2.1
@[simp] theorem State.writeWord_fatal (s : State) (a v : Word) : (s.writeWord a v).fatal = s.fatal :=
  (s.writeWord_fields a v).2.2.2.1
@[simp] theorem State.writeWord_cfg (s : State) (a v : Word) : (s.writeWord a v).cfg = s.cfg :=
  (s.writeWord_fields a v).2.2.2.2.1
@[simp] theorem State.writeWord_errlog (s : State) (a v : Word) :
    (s.writeWord a v).errlog = s.errlog ++ reportsOf s.cfg .write (wordAddrs a) :=
  (s.writeWord_fields a v).2.2.2.2.2

theorem State.reg_congr {s t : State} (h : s.regs = t.regs) (r : Reg) : s.reg r = t.reg r := by
  cases r <;> simp [State.reg, h]

@[simp] theorem State.writeWord_reg (s : State) (a v : Word) (r : Reg) : (s.writeWord a v).reg r = s.reg r :=
  State.reg_congr (s.writeWord_regs a v) r

/-- What a byte outside the word reads as after a word write: what it did (R36). -/
theorem State.writeWord_peek_outside (s : State) (a v b : Word) (h : b ∉ wordAddrs a) :
    (s.writeWord a v).peek b = s.peek b := by
  simp only [wordAddrs, List.mem_cons, List.not_mem_nil, or_false, not_or] at h
  simp only [State.writeWord, State.writeByte_peek, h.1, h.2.1, h.2.2.1, h.2.2.2, false_and, if_false]

/-- What an in-range byte of the word reads as after a word write: the word's byte (R36, R37). -/
theorem State.writeWord_peek_inside (s : State) (a v : Word) (i : Nat) (hi : i < 4)
    (h : valid s.cfg (a + BitVec.ofNat 32 i) = true) :
    (s.writeWord a v).peek (a + BitVec.ofNat 32 i) = wordByte v i := by
  have e0 : a + 0#32 = a := by simp
  have n1 : a + 1 ≠ a := by bv_omega
  have n2 : a + 2 ≠ a := by bv_omega
  have n3 : a + 3 ≠ a := by bv_omega
  have n4 : a + 2 ≠ a + 1 := by bv_omega
  have n5 : a + 3 ≠ a + 1 := by bv_omega
  have n6 : a + 3 ≠ a + 2 := by bv_omega
  rcases (by omega : i = 0 ∨ i = 1 ∨ i = 2 ∨ i = 3) with rfl | rfl | rfl | rfl
  · rw [e0] at h ⊢
    simp only [State.writeWord, State.writeByte_peek, State.writeByte_cfg, n1.symm, n2.symm, n3.symm, h,
      false_and, if_false, true_and, if_true]
  · change valid s.cfg (a + 1) = true at h
    change (s.writeWord a v).peek (a + 1) = _
    simp only [State.writeWord, State.writeByte_peek, State.writeByte_cfg, n4.symm, n5.symm, h, false_and,
      if_false, true_and, if_true]
  · change valid s.cfg (a + 2) = true at h
    change (s.writeWord a v).peek (a + 2) = _
    simp only [State.writeWord, State.writeByte_peek, State.writeByte_cfg, n6.symm, h, false_and,
      if_false, true_and, if_true]
  · change valid s.cfg (a + 3) = true at h
    change (s.writeWord a v).peek (a + 3) = _
    simp only [State.writeWord, State.writeByte_peek, State.writeByte_cfg, h, true_and, if_true]

/-- A byte write keeps the memory's canonical form. -/
theorem State.writeByte_mem_wf (s : State) (a : Word) (v : Byte) (h : Memory.wf s.mem = true) :
    Memory.wf (s.writeByte a v).mem = true := by
  unfold State.writeByte
  split
  · exact Memory.set_wf _ _ _ h
  · exact h

/-- A word write keeps the memory's canonical form. -/
theorem State.writeWord_mem_wf (s : State) (a v : Word) (h : Memory.wf s.mem = true) :
    Memory.wf (s.writeWord a v).mem = true :=
  State.writeByte_mem_wf _ _ _ (State.writeByte_mem_wf _ _ _ (State.writeByte_mem_wf _ _ _
    (State.writeByte_mem_wf _ _ _ h)))

/-- Placing bytes from outside keeps the memory's canonical form. -/
theorem State.place_mem_wf (s : State) (a : Word) (bs : List Byte) (h : Memory.wf s.mem = true) :
    Memory.wf (s.place a bs).mem = true := by
  induction bs generalizing s a with
  | nil => exact h
  | cons b rest ih =>
    apply ih
    split
    · exact Memory.set_wf _ _ _ h
    · exact h

/-- Writing bytes one after another keeps the memory's canonical form. -/
theorem State.writeBytes_mem_wf (s : State) (a : Word) (bs : List Byte) (h : Memory.wf s.mem = true) :
    Memory.wf (s.writeBytes a bs).mem = true := by
  induction bs generalizing s a with
  | nil => exact h
  | cons b rest ih => exact ih _ _ (State.writeByte_mem_wf _ _ _ h)

/-- Writing words one after another keeps the memory's canonical form. -/
theorem State.writeWords_mem_wf (s : State) (a : Word) (ws : List Word) (h : Memory.wf s.mem = true) :
    Memory.wf (s.writeWords a ws).mem = true := by
  induction ws generalizing s a with
  | nil => exact h
  | cons b rest ih => exact ih _ _ (State.writeWord_mem_wf _ _ _ h)

/-! The stack primitives. -/

/-- A push at or above the stack segment's start (R107). -/
theorem push_ok {s : State} (v : Word) (h : below (s.reg .esp - 4) s.cfg.stackStart = false) :
    push s v = .ok ((s.setReg .esp (s.reg .esp - 4)).writeWord (s.reg .esp - 4) v) := by
  simp only [push, State.setReg_reg, if_true, h, Bool.false_eq_true, if_false]

/-- A push below the stack segment's start: the decrement stays, nothing is written (R107, R129). -/
theorem push_overflow {s : State} (v : Word) (h : below (s.reg .esp - 4) s.cfg.stackStart = true) :
    push s v = .error ((s.setReg .esp (s.reg .esp - 4)).raise .stackOverflow) := by
  simp only [push, State.setReg_reg, if_true, h]

/-- A pop below the stack segment's end (R108). -/
theorem pop_ok {s : State} (h : below (s.reg .esp) s.cfg.stackEnd = true) :
    pop s = .ok (s.peekWord (s.reg .esp),
      (s.addReports (reportsOf s.cfg .read (wordAddrs (s.reg .esp)))).setReg .esp (s.reg .esp + 4)) := by
  simp [pop, h, State.readWord_spec]

/-- A pop at or above the stack segment's end: nothing changed but the latch (R108, R130). -/
theorem pop_underflow {s : State} (h : below (s.reg .esp) s.cfg.stackEnd = false) :
    pop s = .error (s.raise .stackUnderflow) := by
  simp [pop, h]

/-- A taken jump whose push succeeds (R115). -/
theorem pushAndJump_ok {s : State} (t : Word) (h : below (s.reg .esp - 4) s.cfg.stackStart = false) :
    pushAndJump s t = ((s.setReg .esp (s.reg .esp - 4)).writeWord (s.reg .esp - 4) s.pc).setPc t := by
  simp [pushAndJump, push_ok _ h]

/-- A taken jump whose push overflows: pc stays (R115). -/
theorem pushAndJump_overflow {s : State} (t : Word) (h : below (s.reg .esp - 4) s.cfg.stackStart = true) :
    pushAndJump s t = (s.setReg .esp (s.reg .esp - 4)).raise .stackOverflow := by
  simp [pushAndJump, push_overflow _ h]

/-! Fetch. -/

/-- The reads of a fetch change nothing but ERRLOG (R33, R64). -/
theorem State.fetchReads_spec (s : State) (offs : List Nat) :
    s.fetchReads offs = s.addReports (reportsOf s.cfg .read (offs.map s.operandAddr)) := by
  induction offs generalizing s with
  | nil => simp [State.fetchReads]
  | cons o rest ih =>
    have hf : (s.addReports (reportsOf s.cfg .read [s.operandAddr o])).operandAddr = s.operandAddr := rfl
    rw [State.fetchReads, State.readByte_spec, ih, hf, List.map_cons, reportsOf_cons s.cfg .read (s.operandAddr o)]
    simp [reportsOf_cons]

/-- Fetch: what the bytes decode to, and the reports of the byte reads the decode made (R64). -/
theorem State.fetch_spec (s : State) :
    s.fetch = (decode s.cfg s.window,
      s.addReports (reportsOf s.cfg .read ((decodeTrace s.cfg s.window).reads.map s.operandAddr))) := by
  simp [State.fetch, State.fetchReads_spec, decode]

/-- Byte `i` of the window is what a read of it returns. -/
theorem State.byteAt_window (s : State) (i : Nat) (hi : i < 8) : byteAt s.window i = s.peek (s.operandAddr i) := by
  simp [byteAt, State.window, hi]

/-! The step. -/

/-- What a step can do (R145 to R147, R132, R133): everything, once. -/
theorem step_cases (s : State) :
    (s.cfg.legal = false ∧ step s = .refused .illegalConfiguration) ∨
    (s.cfg.legal = true ∧ ∃ code, s.status = .fatal code ∧ step s = .fault (.stopped code)) ∨
    (s.cfg.legal = true ∧ s.status = .halted ∧ step s = .next s) ∨
    (s.cfg.legal = true ∧ s.status = .running ∧ ∃ i, decode s.cfg s.window = .ok i ∧
      step s = exec i (s.addReports
        (reportsOf s.cfg .read ((decodeTrace s.cfg s.window).reads.map s.operandAddr)))) ∨
    (s.cfg.legal = true ∧ s.status = .running ∧ ∃ e, decode s.cfg s.window = .error e ∧
      step s = .next ((s.addReports
        (reportsOf s.cfg .read ((decodeTrace s.cfg s.window).reads.map s.operandAddr))).raise
          (fatalOfDecode e))) := by
  unfold step
  cases hl : s.cfg.legal
  · simp
  · simp only [if_true, State.fetch_spec]
    cases hs : s.status
    · cases hd : decode s.cfg s.window <;> simp
    · simp
    · simp

/-- A run one step longer, when the step answers a next state. -/
theorem run_succ_of_next {s t : State} (n : Nat) (h : step s = .next t) :
    Host.Core.run Sys2Proof.core (n + 1) s = Host.Core.run Sys2Proof.core n t := by
  have h' : Sys2Proof.core.step s = .next t := h
  simp only [Host.Core.run, h']

/-- A run whose first step faults. -/
theorem run_succ_of_fault {s : State} {f : Fault} (n : Nat) (h : step s = .fault f) :
    Host.Core.run Sys2Proof.core (n + 1) s = .fault f := by
  have h' : Sys2Proof.core.step s = .fault f := h
  simp only [Host.Core.run, h']

end Sys2Proof.Machine
end

