-- ==== Sys2Proof/Laws/Exec.lean ====
section
/-! SUPPORT. One equation per case of the instructions that can go more than one way; the others are single
equations that hold by rfl. -/

namespace Sys2Proof.Machine

/-- `LOAD` (R85). -/
theorem exec_load (d : Reg) (a : Word) (s : State) :
    exec (.load d a) s =
      .next (((s.addReports (reportsOf s.cfg .read (wordAddrs a))).setReg d (s.peekWord a)).advance .load) := by
  simp [exec, execLoad, effectiveAddress, State.readWord_spec]

/-- `DIV` by zero (R94, R128). -/
theorem exec_div_zero {s : State} {b : Reg} (a d : Reg) (h : s.reg b = 0) :
    exec (.div a b d) s = .next (s.raise .divideByZero) := by
  simp [exec, execDiv, State.sources, h]

/-- `DIV` by a non-zero divisor (R94). -/
theorem exec_div {s : State} {b : Reg} (a d : Reg) (h : s.reg b ≠ 0) :
    exec (.div a b d) s = .next ((s.writeArith d (divFn s.cfg (s.reg a) (s.reg b))).advance .div) := by
  simp [exec, execDiv, State.sources, show ¬ s.reg b = 0#32 from h]

/-- `PUSH` that fits (R109). -/
theorem exec_push {s : State} (r : Reg) (h : below (s.reg .esp - 4) s.cfg.stackStart = false) :
    exec (.push r) s =
      .next (((s.setReg .esp (s.reg .esp - 4)).writeWord (s.reg .esp - 4) (s.reg r)).advance .push) := by
  simp only [exec, execPush, push_ok _ h]

/-- `PUSH` that overflows (R109). -/
theorem exec_push_overflow {s : State} (r : Reg) (h : below (s.reg .esp - 4) s.cfg.stackStart = true) :
    exec (.push r) s = .next ((s.setReg .esp (s.reg .esp - 4)).raise .stackOverflow) := by
  simp only [exec, execPush, push_overflow _ h]

/-- `POP` that fits (R110). -/
theorem exec_pop {s : State} (r : Reg) (h : below (s.reg .esp) s.cfg.stackEnd = true) :
    exec (.pop r) s = .next
      ((((s.addReports (reportsOf s.cfg .read (wordAddrs (s.reg .esp)))).setReg .esp (s.reg .esp + 4)).setReg r
        (s.peekWord (s.reg .esp))).advance .pop) := by
  simp only [exec, execPop, pop_ok h]

/-- `POP` that underflows (R110). -/
theorem exec_pop_underflow {s : State} (r : Reg) (h : below (s.reg .esp) s.cfg.stackEnd = false) :
    exec (.pop r) s = .next (s.raise .stackUnderflow) := by
  simp only [exec, execPop, pop_underflow h]

/-- `RET` that fits (R120). -/
theorem exec_ret {s : State} (h : below (s.reg .esp) s.cfg.stackEnd = true) :
    exec .ret s = .next
      (((s.addReports (reportsOf s.cfg .read (wordAddrs (s.reg .esp)))).setReg .esp (s.reg .esp + 4)).setPc
        (s.peekWord (s.reg .esp) + 8)) := by
  simp only [exec, execRet, pop_ok h]

/-- `RET` that underflows (R120). -/
theorem exec_ret_underflow {s : State} (h : below (s.reg .esp) s.cfg.stackEnd = false) :
    exec .ret s = .next (s.raise .stackUnderflow) := by
  simp only [exec, execRet, pop_underflow h]

/-- `JZ`, by the flag (R117). -/
theorem exec_jz (t : Word) (s : State) :
    exec (.jz t) s = .next (if s.zf = true then pushAndJump s t else s.advance .jz) := rfl

/-- `JNZ`, by the flag (R118). -/
theorem exec_jnz (t : Word) (s : State) :
    exec (.jnz t) s = .next (if s.zf = true then s.advance .jnz else pushAndJump s t) := rfl

end Sys2Proof.Machine
end

