-- ==== Sys2Proof/Laws/PerInstr.lean ====
section
/-! SUPPORT. Statements about each instruction as syntax, one lemma per constructor. -/

namespace Sys2Proof.Laws.OpcodeByteFirst

/-- The first byte of an instruction's encoding is the opcode byte of its row, under every configuration, and the
rest has the length the format leaves for the operands (R50, R59). -/
def Statement (i : Instr) : Prop :=
  ∀ c : Config, byteAt (encode c i) 0 = c.opcByte i.mnemonic ∧
    (encodeOperands c i).length + 1 = i.mnemonic.format.length

theorem mov (d s : Reg) : Statement (.mov d s) := fun _ => ⟨rfl, rfl⟩
theorem movi (d : Reg) (n : Word) : Statement (.movi d n) := fun _ => ⟨rfl, rfl⟩
theorem load (d : Reg) (a : Word) : Statement (.load d a) := fun _ => ⟨rfl, rfl⟩
theorem store (r : Reg) (a : Word) : Statement (.store r a) := fun _ => ⟨rfl, rfl⟩
theorem add (a b d : Reg) : Statement (.add a b d) := fun _ => ⟨rfl, rfl⟩
theorem sub (a b d : Reg) : Statement (.sub a b d) := fun _ => ⟨rfl, rfl⟩
theorem mul (a b d : Reg) : Statement (.mul a b d) := fun _ => ⟨rfl, rfl⟩
theorem div (a b d : Reg) : Statement (.div a b d) := fun _ => ⟨rfl, rfl⟩
theorem and (a b d : Reg) : Statement (.and a b d) := fun _ => ⟨rfl, rfl⟩
theorem or (a b d : Reg) : Statement (.or a b d) := fun _ => ⟨rfl, rfl⟩
theorem xor (a b d : Reg) : Statement (.xor a b d) := fun _ => ⟨rfl, rfl⟩
theorem not (r : Reg) : Statement (.not r) := fun _ => ⟨rfl, rfl⟩
theorem push (r : Reg) : Statement (.push r) := fun _ => ⟨rfl, rfl⟩
theorem pop (r : Reg) : Statement (.pop r) := fun _ => ⟨rfl, rfl⟩
theorem jmp (t : Word) : Statement (.jmp t) := fun _ => ⟨rfl, rfl⟩
theorem jz (t : Word) : Statement (.jz t) := fun _ => ⟨rfl, rfl⟩
theorem jnz (t : Word) : Statement (.jnz t) := fun _ => ⟨rfl, rfl⟩
theorem call (t : Word) : Statement (.call t) := fun _ => ⟨rfl, rfl⟩
theorem ret : Statement (.ret) := fun _ => ⟨rfl, rfl⟩

end Sys2Proof.Laws.OpcodeByteFirst
end

