-- ==== Sys2Proof/Tests/Slice0.lean ====
section
/-! SUPPORT. Tests: ill-formed configurations, decodings of bytes written out from 30_encoding.md, single steps
with the results 95_test_vectors.md gives (V30 to V45), and a witness for each statement with hypotheses. -/

namespace Sys2Proof.Tests

open Sys2Proof Sys2Proof.Machine Sys2Proof.Claims

/-! Helpers. -/

/-- The configuration of 95_test_vectors.md section 2. -/
def cfg : Config := Config.default

/-- State.reset with pc at 32 and the bytes given there. -/
def at32 (bs : List Byte) : State := (State.reset.setPc 32).place 32 bs

/-- What a reader sees of the state one step leaves. -/
def after {α : Type} (s : State) (f : State → α) : Option α :=
  match step s with
  | .next t => some (f t)
  | .fault _ => none
  | .refused _ => none

/-- What the bytes decode to under the default configuration. -/
def dec (bs : List Byte) : Option Instr :=
  match decode cfg bs with
  | .ok i => some i
  | .error _ => none

/-- Four bytes of memory. -/
def four (s : State) (a : Word) : List Byte := [s.peek a, s.peek (a + 1), s.peek (a + 2), s.peek (a + 3)]

/-! WellFormed: one ill-formed configuration per check (R3, R4). -/

theorem test_legal_default : Config.default.legal = true := by decide
theorem test_illegal_program_size : ({ cfg with programSize := 7, progEnd := 0 } : Config).legal = false := by decide
theorem test_legal_program_size_eight : ({ cfg with programSize := 8, progEnd := 8 } : Config).legal = true := by decide
theorem test_illegal_memory_size : ({ cfg with stackSize := 2147483568 } : Config).legal = false := by decide
theorem test_illegal_prog_end : ({ cfg with progEnd := 65 } : Config).legal = false := by decide
theorem test_illegal_opcodes : ({ cfg with opc := { defaultOpc with ret := 0x12 } } : Config).legal = false := by decide
theorem test_illegal_registers : ({ cfg with regId := { defaultRegId with ebp := 0 } } : Config).legal = false := by
  decide
theorem test_illegal_is_refused :
    step (State.boot { cfg with progEnd := 65 }) = .refused .illegalConfiguration := rfl

/-! Decode: bytes from the tables of 30_encoding.md R51 to R59 and R73, one or more per opcode. -/

theorem test_decode_mov : dec [0x01, 0x01, 0x00, 0x00] = some (.mov .ebx .eax) := by decide
theorem test_decode_movi : dec [0x02, 0x01, 0x00, 0x00, 0x78, 0x56, 0x34, 0x12] = some (.movi .ebx 0x12345678) := by
  decide
theorem test_decode_load : dec [0x03, 0x03, 0x00, 0x00, 0x40, 0x00, 0x00, 0x00] = some (.load .edx 64) := by decide
theorem test_decode_store : dec [0x04, 0x07, 0x00, 0x00, 0xFE, 0xFF, 0xFF, 0xFF] = some (.store .ebp 0xFFFFFFFE) := by
  decide
theorem test_decode_add : dec [0x05, 0x00, 0x02, 0x05] = some (.add .eax .ecx .edi) := by decide
theorem test_decode_sub : dec [0x06, 0x02, 0x01, 0x02] = some (.sub .ecx .ebx .ecx) := by decide
theorem test_decode_mul : dec [0x07, 0x00, 0x01, 0x03] = some (.mul .eax .ebx .edx) := by decide
theorem test_decode_div : dec [0x08, 0x00, 0x01, 0x02] = some (.div .eax .ebx .ecx) := by decide
theorem test_decode_and : dec [0x09, 0x04, 0x05, 0x06] = some (.and .esi .edi .esp) := by decide
theorem test_decode_or : dec [0x0A, 0x00, 0x01, 0x02] = some (.or .eax .ebx .ecx) := by decide
theorem test_decode_xor : dec [0x0B, 0x07, 0x06, 0x05] = some (.xor .ebp .esp .edi) := by decide
theorem test_decode_not : dec [0x0C, 0x01, 0x00, 0x00] = some (.not .ebx) := by decide
theorem test_decode_push : dec [0x0D, 0x06, 0x00, 0x00] = some (.push .esp) := by decide
theorem test_decode_pop : dec [0x0E, 0x03, 0x00, 0x00] = some (.pop .edx) := by decide
theorem test_decode_jmp : dec [0x0F, 0x07, 0x07, 0x07, 0x40, 0x00, 0x00, 0x00] = some (.jmp 64) := by decide
theorem test_decode_jz : dec [0x10, 0x00, 0x00, 0x00, 0x38, 0x00, 0x00, 0x00] = some (.jz 56) := by decide
theorem test_decode_jnz : dec [0x11, 0x00, 0x00, 0x00, 0x20, 0x00, 0x00, 0x80] = some (.jnz 0x80000020) := by decide
theorem test_decode_call : dec [0x12, 0x00, 0x00, 0x00, 0x08, 0x00, 0x00, 0x00] = some (.call 8) := by decide
theorem test_decode_ret : dec [0x13, 0xAA, 0xBB, 0xCC] = some .ret := by decide
theorem test_decode_bad_opcodes : [0x00, 0x14, 0xFF].map (fun b => dec [b, 0, 0, 0]) = [none, none, none] := by decide
theorem test_decode_bad_registers :
    [dec [0x01, 0x08, 0x00, 0x00], dec [0x01, 0x00, 0xFF, 0x00], dec [0x05, 0x00, 0x00, 0x08]] = [none, none, none] := by
  decide
/-- R64: after an invalid first register byte no further operand byte is read. -/
theorem test_decode_stops_reading : (decodeTrace cfg [0x05, 0x08, 0x00, 0x00]).reads = [0, 1] := by decide
theorem test_table_word : decodeTableWord 64 0x1234567800000102 = some (.movi .ebx 0x12345678) := by decide
/-- A row of 32 bits: what stands above them is not read. -/
theorem test_table_word_short : decodeTableWord 32 0x9900000013 = some .ret := by decide

/-- The word placed by the host's interface is the one the very next step runs. -/
theorem test_fetch_word : after (State.reset.withFetchWord 64 0x1234567800000102) (fun t => (t.reg .ebx, t.pc)) =
    some (0x12345678, 8) := by decide

/-! Single steps. Each name gives the vector of 95_test_vectors.md. -/

theorem test_V30_7 : after (at32 [0x08, 0x00, 0x01, 0x09]) (fun t => (t.status, t.pc)) =
    some (.fatal .invalidRegister, 32) := by decide
theorem test_V30_11 : after (State.reset.setPc 0xFFFFFFF0) (fun t => (t.status, t.errlog)) =
    some (.fatal .invalidOpcode, [⟨.read, 0xFFFFFFF0⟩]) := by decide
theorem test_V30_12 : step (State.reset.setPc 64) = .next (State.reset.setPc 64) := rfl

theorem test_V40_1 : after ((at32 [0x01, 0x01, 0x00, 0x00]).setReg .eax 0x2A) (fun t => (t.reg .ebx, t.pc)) =
    some (0x2A, 36) := by decide
theorem test_V40_3 : after ((at32 [0x01, 0x06, 0x00, 0x00]).setReg .eax 0x50) (fun t => t.reg .esp) = some 80 := by
  decide
theorem test_V40_5 : after (at32 [0x02, 0x07, 0x00, 0x00, 0xFF, 0xFF, 0xFF, 0xFF]) (fun t => (t.reg .ebp, t.pc)) =
    some (0xFFFFFFFF, 40) := by decide
theorem test_V41_2 : after ((at32 [0x03, 0x00, 0x00, 0x00, 0x41, 0x00, 0x00, 0x00]).place 64
    [0x11, 0x22, 0x33, 0x44, 0x55]) (fun t => t.reg .eax) = some 0x55443322 := by decide +kernel
theorem test_V41_5 : after ((at32 [0x03, 0x00, 0x00, 0x00, 0xFE, 0xFF, 0xFF, 0xFF]).place 0 [0x12, 0x00])
    (fun t => (t.reg .eax, t.errlog)) = some (0x00120000, [⟨.read, 0xFFFFFFFE⟩, ⟨.read, 0xFFFFFFFF⟩]) := by decide +kernel
theorem test_V41_7 : after ((at32 [0x04, 0x00, 0x00, 0x00, 0x40, 0x00, 0x00, 0x00]).setReg .eax 0x11223344)
    (fun t => (four t 64, t.pc)) = some ([0x44, 0x33, 0x22, 0x11], 40) := by decide +kernel
theorem test_V41_8 : after ((at32 [0x04, 0x00, 0x00, 0x00, 0x6E, 0x00, 0x00, 0x00]).setReg .eax 0xAABBCCDD)
    (fun t => (four t 110, t.errlog)) = some ([0xDD, 0xCC, 0x00, 0x00], [⟨.write, 112⟩, ⟨.write, 113⟩]) := by decide +kernel

/-- An ALU3 instruction `op EAX EBX ECX` with the two source values, ZF true before. -/
def alu (op : Byte) (a b : Word) : Option (Word × Bool × Word) :=
  after ((((at32 [op, 0x00, 0x01, 0x02]).setReg .eax a).setReg .ebx b).setZf true)
    (fun t => (t.reg .ecx, t.zf, t.pc))

theorem test_V42_2 : alu 0x05 0x7FFFFFFF 1 = some (0x80000000, false, 36) := by decide
theorem test_V42_3 : alu 0x05 0xFFFFFFFF 1 = some (0, true, 36) := by decide
theorem test_V42_6 : alu 0x06 0 1 = some (0xFFFFFFFF, false, 36) := by decide
theorem test_V42_5 : alu 0x06 5 5 = some (0, true, 36) := by decide
theorem test_V42_10 : alu 0x07 0xFFFFFFFF 0xFFFFFFFF = some (1, false, 36) := by decide
theorem test_V42_12 : alu 0x07 0x00010000 0x00010000 = some (0, true, 36) := by decide
theorem test_V42_15 : alu 0x08 0xFFFFFFF9 2 = some (0xFFFFFFFD, false, 36) := by decide
theorem test_V42_20 : alu 0x08 0x80000000 0xFFFFFFFF = some (0x80000000, false, 36) := by decide
theorem test_V42_21 : after ((at32 [0x08, 0x00, 0x01, 0x02]).setReg .eax 7) (fun t => (t.status, t.reg .ecx, t.pc)) =
    some (.fatal .divideByZero, 0, 32) := by decide
theorem test_V43_1 : alu 0x09 0xF0F0F0F0 0x0FF00FF0 = some (0x00F000F0, true, 36) := by decide
theorem test_V43_3 : alu 0x0A 0xF0F0F0F0 0x0FF00FF0 = some (0xFFF0FFF0, true, 36) := by decide
theorem test_V43_5 : alu 0x0B 0xF0F0F0F0 0x0FF00FF0 = some (0xFF00FF00, true, 36) := by decide
theorem test_V43_7 : after ((at32 [0x0C, 0x00, 0x00, 0x00]).setReg .eax 0x0A) (fun t => t.reg .eax) =
    some 0xFFFFFFF5 := by decide

theorem test_V44_3 : after (((at32 [0x0D, 0x00, 0x00, 0x00]).setReg .esp 80).place 76 [0xAA, 0xAA, 0xAA, 0xAA])
    (fun t => (t.status, t.reg .esp, four t 76, t.pc)) =
    some (.fatal .stackOverflow, 76, [0xAA, 0xAA, 0xAA, 0xAA], 32) := by decide
theorem test_V44_4 : after (at32 [0x0D, 0x06, 0x00, 0x00]) (fun t => (t.reg .esp, four t 108)) =
    some (108, [0x70, 0x00, 0x00, 0x00]) := by decide
theorem test_V44_9 : after (((at32 [0x0E, 0x06, 0x00, 0x00]).setReg .esp 108).place 108 [0x50]) (fun t => t.reg .esp) =
    some 80 := by decide
theorem test_V44_7 : after (at32 [0x0E, 0x01, 0x00, 0x00]) (fun t => (t.status, t.reg .esp, t.pc)) =
    some (.fatal .stackUnderflow, 112, 32) := by decide

/-- A jump-class instruction at 40. -/
def jump (op target : Byte) (esp : Word) (zf : Bool) : Option (Word × Word × List Byte × Status) :=
  after (((((at32 []).setPc 40).place 40 [op, 0, 0, 0, target, 0, 0, 0]).setReg .esp esp).setZf zf)
    (fun t => (t.pc, t.reg .esp, four t 104, t.status))

theorem test_V45_1 : jump 0x0F 32 108 false = some (32, 104, [0x28, 0, 0, 0], .running) := by decide
theorem test_V45_7 : jump 0x0F 32 80 false = some (40, 76, [0, 0, 0, 0], .fatal .stackOverflow) := by decide
theorem test_V45_2 : jump 0x10 56 108 true = some (56, 104, [0x28, 0, 0, 0], .running) := by decide
theorem test_V45_8 : jump 0x10 32 80 false = some (48, 80, [0, 0, 0, 0], .running) := by decide
theorem test_V45_4 : jump 0x11 32 108 false = some (32, 104, [0x28, 0, 0, 0], .running) := by decide
theorem test_V45_5 : jump 0x11 32 108 true = some (48, 108, [0, 0, 0, 0], .running) := by decide
theorem test_V45_6 : jump 0x12 8 108 false = some (8, 104, [0x28, 0, 0, 0], .running) := by decide
theorem test_V45_11 : after (((at32 [0x13, 0, 0, 0]).setReg .esp 108).place 108 [0xFC, 0xFF, 0xFF, 0xFF])
    (fun t => (t.pc, t.reg .esp)) = some (4, 112) := by decide
theorem test_V45_12 : after (((at32 [0x13, 0, 0, 0]).setReg .esp 108).place 108 [0x00, 0x01])
    (fun t => (t.pc, t.status)) = some (264, .halted) := by decide

/-! The assembler and the loader: program P1 and two rejections (R68 to R78). -/

/-- The image of program P1. -/
def p1 : Image := ⟨[5], [0x02, 0, 0, 0, 5, 0, 0, 0, 0x05, 0, 0, 0], 8⟩

theorem test_assemble_P1 :
    assemble cfg ".data\nx = 5\n.start\nMOV EAX x ; move\nADD EAX EAX, EAX" = .ok p1 := by decide
theorem test_assemble_forward_label : assemble cfg ".start\nJMP later\n.later\nRET" = .error .unresolvedSymbol := by
  decide
/-- D14: an integer is an optional `-` and digits; commas are discarded in instruction lines only (R67). -/
theorem test_assemble_data_comma : assemble cfg ".data\nx = 1,000\n.start\nRET" = .error .malformedData := by decide
theorem test_assemble_no_start : assemble cfg ".f\nRET" = .error .missingStart := by decide +kernel
theorem test_load_P1 : ((load State.reset p1).map fun t => (t.cfg.progEnd, four t 0, four t 4, four t 64)) =
    some (20, [0x12, 0, 0, 0], [8, 0, 0, 0], [5, 0, 0, 0]) := by decide +kernel
/-- P1's first step: the entry call pushes 0 and goes to 8. -/
theorem test_run_P1_entry : ((load State.reset p1).bind fun t => after t fun u => (u.pc, u.reg .esp, u.status)) =
    some (8, 108, .running) := by decide +kernel

/-! Witnesses: for each statement with hypotheses, states and operands that meet them, at boundary values where a
clause has a range. `w` is a running state with `DIV EAX EBX ECX` at pc. -/

/-- A running state: `DIV EAX EBX ECX` at 32, EBX zero. -/
def w : State := at32 [0x08, 0x00, 0x01, 0x02]

/-- A configuration with no data and no stack segment: an instruction at its end straddles the buffer. -/
def tight : State := ((State.boot { cfg with dataSize := 0, stackSize := 0 }).setPc 63).place 63 [0x05]

theorem witness_runs : Runs w ∧ Runs tight ∧ Runs (State.reset.setPc 63) := ⟨⟨by decide, by decide⟩, ⟨by decide, by decide⟩, ⟨by decide, by decide⟩⟩
theorem witness_NotRegister : NotRegister cfg 8 ∧ NotRegister cfg 255 ∧ ¬ NotRegister cfg 7 :=
  ⟨by intro r; cases r <;> decide, by intro r; cases r <;> decide, fun h => h .ebp (by decide)⟩
theorem witness_DecodeEncodeRoundTrip : cfg.legal = true ∧ (Instr.div .eax .ebx .ecx).wellFormed = true := by decide
theorem witness_DecodedBytesAreTheEncoding :
    (match decode cfg [0x10, 1, 2, 3, 8, 0, 0, 0] with | .ok i => decide (i = .jz 8) | .error _ => false) = true := by
  decide
theorem witness_PadBytesCarryNothing : cfg.mnemonicOf (byteAt [0x0C, 1, 0, 0] 0) = some .not ∧
    (∀ o, o ∉ Mnemonic.not.format.padOffsets → byteAt [0x0C, 1, 9, 9] o = byteAt [0x0C, 1, 0, 0] o) ∧
    2 ∈ Mnemonic.not.format.padOffsets :=
  ⟨by decide, fun o h => match o, h with
    | 0, _ | 1, _ | _ + 4, _ => rfl
    | 2, h | 3, h => absurd (by decide) h, by decide⟩
theorem witness_OpcodeOutsideTheTableIsFatal : Runs (at32 [0x14]) ∧ ∀ m, (at32 [0x14]).cfg.opcByte m ≠ (at32 [0x14]).peek 32 :=
  ⟨⟨by decide, by decide⟩, by intro m; cases m <;> decide⟩
theorem witness_RegisterByteOutsideTheTableIsFatal :
    Runs (at32 [0x05, 0, 0, 8]) ∧ (at32 [0x05, 0, 0, 8]).cfg.mnemonicOf ((at32 [0x05, 0, 0, 8]).peek 32) = some .add ∧
      3 ∈ Mnemonic.add.format.regOffsets ∧ NotRegister (at32 [0x05, 0, 0, 8]).cfg ((at32 [0x05, 0, 0, 8]).peek 35) ∧
      cfg.mnemonicOf (byteAt [0x13] 0) = some .ret :=
  ⟨⟨by decide, by decide⟩, by decide, by decide, by intro r; cases r <;> decide, by decide⟩
theorem witness_StepRunsDecodedInstruction :
    Runs w ∧ decode w.cfg w.window = .ok (.div .eax .ebx .ecx) ∧
      (∀ o ∈ (decodeTrace w.cfg w.window).reads, valid w.cfg (w.operandAddr o) = true) ∧
      Runs tight ∧ decode tight.cfg tight.window = .ok (.add .eax .eax .eax) ∧
      (∃ o ∈ (decodeTrace tight.cfg tight.window).reads, valid tight.cfg (tight.operandAddr o) = false) :=
  ⟨⟨by decide, by decide⟩, rfl, by decide, ⟨by decide, by decide⟩, rfl, by decide⟩
theorem witness_PlacedInstructionRunsNext : Runs State.reset ∧ State.reset.cfg.opc = defaultOpc ∧
    State.reset.cfg.regId = defaultRegId ∧ (∀ k < 8, valid State.reset.cfg (State.reset.operandAddr k) = true) ∧
    decodeTableWord 32 0x02010008 = some (.div .eax .ebx .ecx) :=
  ⟨⟨by decide, by decide⟩, by decide, by decide, by decide, by decide⟩
/-- All four bytes are in range, by computation. -/
theorem wordValid_of_all {c : Config} {a : Word} (h : ((wordAddrs a).all fun b => valid c b) = true) : WordValid c a :=
  List.all_eq_true.mp h

theorem witness_StoreIsSeenByFetch : WordValid cfg 0 ∧ WordValid cfg 108 ∧ ¬ WordValid cfg 109 :=
  ⟨wordValid_of_all (by decide), wordValid_of_all (by decide), fun h => absurd (h 112 (by decide)) (by decide)⟩
theorem witness_LoadReadsWord : valid cfg 112 = false ∧ valid cfg 0xFFFFFFFF = false ∧ valid cfg 111 = true := by decide
theorem witness_AddWritesWrappedSum : (0 : Word) = BitVec.ofNat 32 ((0xFFFFFFFF : Word).toNat + (1 : Word).toNat) := by
  decide
theorem witness_SubWritesWrappedDifference :
    (0xFFFFFFFF : Word) = BitVec.ofInt 32 (((0 : Word).toNat : Int) - ((1 : Word).toNat : Int)) := by decide
theorem witness_MulWritesLowProduct : (0 : Word) = BitVec.ofNat 32 ((0x10000 : Word).toNat * (0x10000 : Word).toNat) := by
  decide
theorem witness_DivDividesOrRaises : w.reg .ebx = 0 ∧ (w.setReg .ebx 2).reg .ebx ≠ 0 := by decide
theorem witness_DefaultQuotientTruncates : cfg.divFn = .signedTruncating ∧ (0xFFFFFFFF : Word) ≠ 0 ∧
    ¬ ((0xFFFFFFF9 : Word) = 0x80000000 ∧ (2 : Word) = 0xFFFFFFFF) := by decide
theorem witness_LogicIgnoresZeroFlag :
    [Instr.and .eax .ebx .ecx, .or .eax .ebx .ecx, .xor .eax .ebx .ecx, .not .eax].map Instr.mnemonic =
      [Mnemonic.and, .or, .xor, .not] := by decide
theorem witness_ZeroFlagWritersAndReaders :
    (Instr.mov .eax .ebx).mnemonic ∉ [Mnemonic.add, .sub, .mul, .div] ∧
      (Instr.div .eax .ebx .ecx).mnemonic ∉ [Mnemonic.jz, .jnz] ∧
      exec (.mov .eax .ebx) w = .next ((w.setReg .eax 0).setPc 36) ∧
      exec (.div .eax .ebx .ecx) w = .next (w.raise .divideByZero) ∧ (w.setZf true).zf = true ∧ w.zf = false :=
  ⟨by decide, by decide, rfl, rfl, rfl, rfl⟩
theorem witness_PushFits : PushFits (w.setReg .esp 84) ∧ ¬ PushFits (w.setReg .esp 83) ∧ ¬ PushFits (w.setReg .esp 2) ∧
    PushFits (w.setReg .esp 0x7FFFFFFF) := by unfold PushFits; decide
theorem witness_PopFits : PopFits (w.setReg .esp 111) ∧ ¬ PopFits (w.setReg .esp 112) ∧
    PopFits (w.setReg .esp 0x80000000) := by unfold PopFits; decide
theorem witness_StackIsBalancedAndLifo : w.cfg.legal = true ∧
    (w.cfg.stackStart : Int) + 4 * ((List.replicate 8 (7 : Word)).length : Int) ≤ s32 (w.reg .esp) ∧
    s32 (w.reg .esp) ≤ (w.cfg.stackEnd : Int) := by decide
theorem witness_PushingTooMuchOverflows : (w.cfg.stackStart : Int) ≤ s32 (w.reg .esp) ∧
    s32 (w.reg .esp) < (w.cfg.stackStart : Int) + 4 * ((List.replicate 9 (7 : Word)).length : Int) := by decide
theorem witness_CallReturnSymmetry : w.cfg.legal = true ∧
    (w.cfg.stackStart : Int) + 4 ≤ s32 ((w.setReg .esp 84).reg .esp) ∧ s32 ((w.setReg .esp 84).reg .esp) ≤ (w.cfg.stackEnd : Int) ∧
    (w.setZf true).zf = true ∧ w.zf = false := by decide
theorem witness_PcAfterEachOpcode : w.fatal = none ∧ (w.raise .divideByZero).fatal ≠ none ∧
    step w = .next (w.raise .divideByZero) := ⟨rfl, by decide, rfl⟩
theorem witness_FatalErrorsHaveTheirCauses : w.cfg.mnemonicOf (w.peek w.pc) = some .div ∧
    State.reset.cfg.mnemonicOf (State.reset.peek State.reset.pc) = none ∧
    decode cfg (at32 [0x01, 0x08]).window = .error .invalidRegister := ⟨by decide, by decide, rfl⟩
theorem witness_FatalStepIsPrecise : Runs w ∧ step w = .next (w.raise .divideByZero) ∧
    Runs ((at32 [0x0D]).setReg .esp 80) ∧
    step ((at32 [0x0D]).setReg .esp 80) = .next (((at32 [0x0D]).setReg .esp 76).raise .stackOverflow) :=
  ⟨⟨by decide, by decide⟩, rfl, ⟨by decide, by decide⟩, rfl⟩
theorem witness_FatalStatusIsTerminal : (w.raise .stackUnderflow).cfg.legal = true ∧
    (w.raise .stackUnderflow).fatal = some .stackUnderflow := by decide
/-- R146: the comparison is signed and has no lower bound. -/
theorem witness_status_boundaries : (w.setPc 63).status = .running ∧ (w.setPc 0x80000000).status = .running ∧
    (w.setPc 64).status = .halted ∧ (w.setPc 0x7FFFFFFF).status = .halted ∧
    (w.raise .divideByZero).status = .fatal .divideByZero := by decide
theorem witness_HaltedMachineStaysAsItIs : w.cfg.legal = true ∧ (w.setPc 64).fatal = none ∧
    (w.cfg.progEnd : Int) ≤ s32 (w.setPc 64).pc ∧ ¬ (w.cfg.progEnd : Int) ≤ s32 (w.setPc 63).pc := by decide
theorem witness_StepStopsOnlyForTheseReasons : (State.boot { cfg with progEnd := 65 }).cfg.legal = false ∧
    w.cfg.legal = true ∧ w.fatal = none := by decide
theorem witness_byte_rules :
    (0 ≤ s32 (0 : Word) ∧ s32 (111 : Word) < (cfg.memSize : Int)) ∧ ¬ s32 (112 : Word) < (cfg.memSize : Int) ∧
      ¬ 0 ≤ s32 (0x80000000 : Word) := by decide
theorem witness_WordsAreLittleEndian : WordValid w.cfg (w.pc + 4) ∧ WordValid w.cfg 107 :=
  ⟨wordValid_of_all (by decide), wordValid_of_all (by decide)⟩
theorem witness_WordRoundTripAndSegments : valid cfg (109 + BitVec.ofNat 32 2) = true ∧
    valid cfg (109 + BitVec.ofNat 32 3) = false ∧ (∃ b ∈ wordAddrs (109 : Word), valid cfg b = false) ∧
    (∃ b ∈ wordAddrs (0xFFFFFFFD : Word), valid cfg b = true) ∧ 111 < cfg.memSize :=
  ⟨by decide, by decide, ⟨112, by decide, by decide⟩, ⟨0, by decide, by decide⟩, by decide⟩
theorem witness_ReportsAreOutOfRangeAndAppended : step (State.reset.setPc 0xFFFFFFF0) =
    .next (((State.reset.setPc 0xFFFFFFF0).report .read 0xFFFFFFF0).raise .invalidOpcode) := rfl
theorem witness_StepKeepsWellFormedState : (w.report .read 112).wf = true ∧
    step (w.report .read 112) = .next ((w.report .read 112).raise .divideByZero) := ⟨by decide, rfl⟩
theorem witness_LoadMakesTheLaunchState : cfg.legal = true ∧ 4 * (List.replicate 4 (0 : Word)).length ≤ cfg.dataSize ∧
    8 + (List.replicate 56 (0 : Byte)).length ≤ cfg.programSize ∧
    cfg.programSize < 8 + (List.replicate 57 (0 : Byte)).length ∧
    8 + p1.code.length ≤ (20 : Word).toNat ∧
    ¬ (cfg.dataStart ≤ (68 : Word).toNat ∧ (68 : Word).toNat < cfg.dataStart + 4 * p1.data.length) := by decide
theorem witness_FirstStepEntersStart : ({ cfg with stackSize := 4 } : Config).legal = true ∧ 4 * p1.data.length ≤ cfg.dataSize ∧
    8 + p1.code.length ≤ cfg.programSize := by decide
theorem witness_UndeclaredNamesAreRejected : "later" ∈ ["later"] ∧ parseInt "later" = none ∧
    (∀ r, regName r ≠ "later") ∧ ([] : List (String × Word)).lookup "later" = none :=
  ⟨by decide, by decide, by intro r; cases r <;> decide, rfl⟩

end Sys2Proof.Tests
end

/-! What an operation of the machine can do to the configuration, memory and ERRLOG, said once for every named
operation, every instruction and the step; what a step keeps and when it answers are read off it. -/

namespace Sys2Proof.Machine

/-! The relation between a state and a state the machine can make of it. -/

/-- What every operation keeps to: the configuration stays (R3, R21), memory stays canonical and lists nothing
new beyond the buffer (R20), and ERRLOG only grows, by out-of-range addresses (R22, R131). -/
structure SafeUpdate (s t : State) : Prop where
  cfg : t.cfg = s.cfg
  memWf : Memory.wf s.mem = true → Memory.wf t.mem = true
  memBound : ∀ e ∈ t.mem, e ∈ s.mem ∨ e.1 < s.cfg.memSize
  errlog : ∃ l, t.errlog = s.errlog ++ l ∧ ∀ r ∈ l, valid s.cfg r.addr = false

/-- An update of the registers, pc, ZF or the latch alone. -/
theorem SafeUpdate.of_eq {s t : State} (hcfg : t.cfg = s.cfg) (hmem : t.mem = s.mem)
    (herr : t.errlog = s.errlog) : SafeUpdate s t where
  cfg := hcfg
  memWf h := hmem ▸ h
  memBound _ he := .inl (hmem ▸ he)
  errlog := ⟨[], by simp [herr]⟩

theorem SafeUpdate.refl (s : State) : SafeUpdate s s := .of_eq rfl rfl rfl

theorem SafeUpdate.setReg (s : State) (r : Reg) (v : Word) : SafeUpdate s (s.setReg r v) := .of_eq rfl rfl rfl

theorem SafeUpdate.setPc (s : State) (target : Word) : SafeUpdate s (s.setPc target) := .of_eq rfl rfl rfl

theorem SafeUpdate.advance (s : State) (m : Mnemonic) : SafeUpdate s (s.advance m) := .of_eq rfl rfl rfl

theorem SafeUpdate.raise (s : State) (code : FatalCode) : SafeUpdate s (s.raise code) := .of_eq rfl rfl rfl

theorem SafeUpdate.trans {s t u : State} (hst : SafeUpdate s t) (htu : SafeUpdate t u) : SafeUpdate s u where
  cfg := htu.cfg.trans hst.cfg
  memWf h := htu.memWf (hst.memWf h)
  memBound e he := by
    rcases htu.memBound e he with ht | hnew
    · exact hst.memBound e ht
    · exact .inr (hst.cfg ▸ hnew)
  errlog := by
    obtain ⟨l, hl, hlOut⟩ := hst.errlog
    obtain ⟨m, hm, hmOut⟩ := htu.errlog
    rw [hst.cfg] at hmOut
    refine ⟨l ++ m, by rw [hm, hl, List.append_assoc], fun r hr => ?_⟩
    exact (List.mem_append.mp hr).elim (hlOut r) (hmOut r)

theorem State.wf_iff (s : State) : s.wf = true ↔
    s.cfg.legal = true ∧ Memory.wf s.mem = true ∧ (∀ e ∈ s.mem, e.1 < s.cfg.memSize) ∧
      ∀ r ∈ s.errlog, valid s.cfg r.addr = false := by
  simp [State.wf, and_assoc]

/-- A safe update keeps the invariant of a state. -/
theorem SafeUpdate.wf {s t : State} (h : SafeUpdate s t) (hs : s.wf = true) : t.wf = true := by
  rw [State.wf_iff] at hs ⊢
  obtain ⟨hlegal, hmem, hbound, hlog⟩ := hs
  obtain ⟨l, hl, hlOut⟩ := h.errlog
  rw [h.cfg, hl]
  refine ⟨hlegal, h.memWf hmem, fun e he => ?_, fun r hr => ?_⟩
  · exact (h.memBound e he).elim (hbound e) id
  · exact (List.mem_append.mp hr).elim (hlog r) (hlOut r)

/-! The memory unit, the stack primitives and push-and-jump. -/

/-- The reports of any accesses (R131). -/
theorem SafeUpdate.addReports (s : State) (k : AccessKind) (as : List Word) :
    SafeUpdate s (s.addReports (reportsOf s.cfg k as)) where
  cfg := rfl
  memWf := id
  memBound _ := .inl
  errlog := ⟨_, rfl, fun _ => mem_reportsOf⟩

/-- A byte write lists nothing new beyond the buffer (R34). -/
theorem State.writeByte_mem_bound (s : State) (a : Word) (v : Byte) :
    ∀ e ∈ (s.writeByte a v).mem, e ∈ s.mem ∨ e.1 < s.cfg.memSize := by
  intro e he
  unfold State.writeByte at he
  split at he
  next hvalid =>
    rcases Memory.mem_set he with rfl | hold
    · exact .inr (valid_toNat_lt hvalid)
    · exact .inl hold
  next => exact .inl he

theorem SafeUpdate.writeByte (s : State) (a : Word) (v : Byte) : SafeUpdate s (s.writeByte a v) where
  cfg := s.writeByte_cfg a v
  memWf := s.writeByte_mem_wf a v
  memBound := s.writeByte_mem_bound a v
  errlog := ⟨_, s.writeByte_errlog a v, fun _ => mem_reportsOf⟩

/-- A word write is four byte writes (R36). -/
theorem SafeUpdate.writeWord (s : State) (a v : Word) : SafeUpdate s (s.writeWord a v) :=
  (((SafeUpdate.writeByte s _ _).trans (.writeByte _ _ _)).trans (.writeByte _ _ _)).trans (.writeByte _ _ _)

/-- The part of a fitting push before pc moves: the decremented ESP, and the word written there (R107). -/
theorem SafeUpdate.pushed (s : State) (a v : Word) : SafeUpdate s ((s.setReg .esp a).writeWord a v) :=
  (SafeUpdate.setReg s .esp a).trans (.writeWord _ a v)

/-- The part of a fitting pop before its word is used: the word read, and the incremented ESP (R108). -/
theorem SafeUpdate.popped (s : State) (v : Word) :
    SafeUpdate s ((s.addReports (reportsOf s.cfg .read (wordAddrs (s.reg .esp)))).setReg .esp v) :=
  (SafeUpdate.addReports s _ _).trans (.setReg _ _ _)

/-- Push-and-jump, whether the push fits or overflows (R115). -/
theorem SafeUpdate.pushAndJump (s : State) (target : Word) : SafeUpdate s (pushAndJump s target) := by
  cases h : below (s.reg .esp - 4) s.cfg.stackStart
  case false =>
    rw [pushAndJump_ok target h]
    exact (SafeUpdate.pushed s _ _).trans (.setPc _ _)
  case true =>
    rw [pushAndJump_overflow target h]
    exact (SafeUpdate.setReg s _ _).trans (.raise _ _)

/-! The instructions and the step. -/

/-- Every instruction answers a next state, by a safe update. -/
theorem exec_safeUpdate (i : Instr) (s : State) : ∃ t, exec i s = .next t ∧ SafeUpdate s t := by
  cases i with
  | mov | movi | add | sub | mul | and | or | xor | not => exact ⟨_, rfl, .of_eq rfl rfl rfl⟩
  | load dst addr =>
    exact ⟨_, exec_load dst addr s,
      ((SafeUpdate.addReports s _ _).trans (.setReg _ _ _)).trans (.advance _ _)⟩
  | store => exact ⟨_, rfl, (SafeUpdate.writeWord s _ _).trans (.advance _ _)⟩
  | div src1 src2 dst =>
    by_cases h : s.reg src2 = 0
    · exact ⟨_, exec_div_zero src1 dst h, .raise _ _⟩
    · exact ⟨_, exec_div src1 dst h, .of_eq rfl rfl rfl⟩
  | push r =>
    cases h : below (s.reg .esp - 4) s.cfg.stackStart
    case false => exact ⟨_, exec_push r h, (SafeUpdate.pushed s _ _).trans (.advance _ _)⟩
    case true => exact ⟨_, exec_push_overflow r h, (SafeUpdate.setReg s _ _).trans (.raise _ _)⟩
  | pop r =>
    cases h : below (s.reg .esp) s.cfg.stackEnd
    case false => exact ⟨_, exec_pop_underflow r h, .raise _ _⟩
    case true => exact ⟨_, exec_pop r h, ((SafeUpdate.popped s _).trans (.setReg _ _ _)).trans (.advance _ _)⟩
  | ret =>
    cases h : below (s.reg .esp) s.cfg.stackEnd
    case false => exact ⟨_, exec_ret_underflow h, .raise _ _⟩
    case true => exact ⟨_, exec_ret h, (SafeUpdate.popped s _).trans (.setPc _ _)⟩
  | jmp | call => exact ⟨_, rfl, .pushAndJump s _⟩
  | jz t =>
    refine ⟨_, exec_jz t s, ?_⟩
    split
    · exact .pushAndJump s t
    · exact .advance s _
  | jnz t =>
    refine ⟨_, exec_jnz t s, ?_⟩
    split
    · exact .advance s _
    · exact .pushAndJump s t

/-- FATAL: the code is latched (R19). -/
@[simp] theorem State.status_fatal_iff (s : State) (code : FatalCode) :
    s.status = .fatal code ↔ s.fatal = some code := by
  unfold State.status
  split
  next hlatched => simp [hlatched]
  next hnone => split <;> simp [hnone]

/-- A machine with a legal configuration and nothing latched answers a next state, by a safe update. -/
theorem step_safeUpdate {s : State} (hlegal : s.cfg.legal = true) (hfatal : s.fatal = none) :
    ∃ t, step s = .next t ∧ SafeUpdate s t := by
  rcases step_cases s with ⟨hillegal, -⟩ | ⟨-, code, hstatus, -⟩ | ⟨-, -, hstep⟩ |
    ⟨-, -, i, -, hstep⟩ | ⟨-, -, e, -, hstep⟩
  · simp [hlegal] at hillegal
  · simp [hfatal] at hstatus
  · exact ⟨s, hstep, .refl s⟩
  · obtain ⟨t, hexec, ht⟩ := exec_safeUpdate i _
    exact ⟨t, hstep.trans hexec, (SafeUpdate.addReports s _ _).trans ht⟩
  · exact ⟨_, hstep, (SafeUpdate.addReports s _ _).trans (.raise _ _)⟩

theorem step_of_illegal {s : State} (h : s.cfg.legal = false) : step s = .refused .illegalConfiguration := by
  simp [step, h]

theorem step_of_fatal {s : State} {code : FatalCode} (hlegal : s.cfg.legal = true)
    (h : s.fatal = some code) : step s = .fault (.stopped code) := by
  simp [step, hlegal, s.status_of_fatal code h]

/-- Whenever a step answers a next state, it is by a safe update. -/
theorem SafeUpdate.of_step {s t : State} (h : step s = .next t) : SafeUpdate s t := by
  cases hlegal : s.cfg.legal
  case false => simp [step_of_illegal hlegal] at h
  case true =>
    cases hfatal : s.fatal with
    | some code => simp [step_of_fatal hlegal hfatal] at h
    | none =>
      obtain ⟨u, hu, hsu⟩ := step_safeUpdate hlegal hfatal
      obtain rfl : u = t := by simpa [hu] using h
      exact hsu

/-- Settles O48: every step is a safe update, and a safe update keeps the invariant. -/
theorem stepKeepsWellFormedState : Obligations.StepKeepsWellFormedState :=
  fun _ _ hs hstep => (SafeUpdate.of_step hstep).wf hs

/-- Settles O40: `exec` has an answer for every instruction, so only `step`'s own two checks can stop it. -/
theorem stepStopsOnlyForTheseReasons : Obligations.StepStopsOnlyForTheseReasons := by
  refine fun s => ⟨step_of_illegal, fun hlegal hfatal => ?_⟩
  obtain ⟨t, hstep, -⟩ := step_safeUpdate hlegal hfatal
  exact ⟨t, hstep⟩

/-- Settles O47: every step is a safe update. -/
theorem stepKeepsConfiguration : Obligations.StepKeepsConfiguration :=
  fun _ _ hstep => (SafeUpdate.of_step hstep).cfg

end Sys2Proof.Machine

/-! What the state's own parts do in every step: ERRLOG is seen by no operation, ZF by six opcodes alone, and the
latch, pc and ZF are written as one rule says; then the state after boot. -/
namespace Sys2Proof.Machine

/-! A change of the state that the operations do not see. -/

/-- The change `g` leaves everything an operation reads, but for ZF, and can be made before or after any update of
anything else. -/
structure Unseen (g : State → State) : Prop where
  reg : ∀ s r, (g s).reg r = s.reg r
  pc : ∀ s, (g s).pc = s.pc
  peek : ∀ s a, (g s).peek a = s.peek a
  cfg : ∀ s, (g s).cfg = s.cfg
  setReg : ∀ s r v, (g s).setReg r v = g (s.setReg r v)
  setPc : ∀ s v, (g s).setPc v = g (s.setPc v)
  raise : ∀ s code, (g s).raise code = g (s.raise code)
  writeByte : ∀ s a v, (g s).writeByte a v = g (s.writeByte a v)
  addReports : ∀ s l, (g s).addReports l = g (s.addReports l)

/-- The change leaves ZF too, and can be made before or after a write of it. -/
structure ZfUnseen (g : State → State) : Prop where
  zf : ∀ s, (g s).zf = s.zf
  setZf : ∀ s b, (g s).setZf b = g (s.setZf b)

/-- The change made to the next state an outcome answers, if it answers one. -/
def onNext (g : State → State) : Host.Outcome State Fault Refusal → Host.Outcome State Fault Refusal
  | .next t => .next (g t)
  | .fault f => .fault f
  | .refused r => .refused r

@[simp] theorem onNext_next (g : State → State) (t : State) : onNext g (.next t) = .next (g t) := rfl

/-- The opcodes that read or write ZF (R17). -/
def zfOpcodes : List Mnemonic := [.add, .sub, .mul, .div, .jz, .jnz]

section
variable {g : State → State} (hg : Unseen g)
include hg

theorem Unseen.peekWord (s : State) (a : Word) : (g s).peekWord a = s.peekWord a := by
  simp only [State.peekWord, hg.peek]

theorem Unseen.advance (s : State) (m : Mnemonic) : (g s).advance m = g (s.advance m) := by
  simp only [State.advance, hg.pc, hg.setPc]

theorem Unseen.writeWord (s : State) (a v : Word) : (g s).writeWord a v = g (s.writeWord a v) := by
  simp only [State.writeWord, hg.writeByte]

theorem Unseen.pushAndJump (s : State) (target : Word) : pushAndJump (g s) target = g (pushAndJump s target) := by
  cases h : below (s.reg .esp - 4) s.cfg.stackStart
  case false =>
    rw [pushAndJump_ok target h, pushAndJump_ok target (by rwa [hg.reg, hg.cfg])]
    simp only [hg.reg, hg.pc, hg.setReg, hg.writeWord, hg.setPc]
  case true =>
    rw [pushAndJump_overflow target h, pushAndJump_overflow target (by rwa [hg.reg, hg.cfg])]
    simp only [hg.reg, hg.setReg, hg.raise]

theorem Unseen.writeArith (hz : ZfUnseen g) (s : State) (d : Reg) (r : Word) :
    (g s).writeArith d r = g (s.writeArith d r) := by
  simp only [State.writeArith, hg.setReg, hz.setZf]

/-- No instruction sees the change, but for those that read or write ZF, where ZF itself is changed. -/
theorem Unseen.exec (i : Instr) (s : State) (hz : i.mnemonic ∈ zfOpcodes → ZfUnseen g) :
    exec i (g s) = onNext g (exec i s) := by
  cases i with
  | mov | movi =>
    simp only [Machine.exec, execMov, execMovi, onNext_next, hg.reg, hg.setReg, hg.advance]
  | load d a =>
    simp only [exec_load, onNext_next, hg.cfg, hg.peekWord, hg.addReports, hg.setReg, hg.advance]
  | store =>
    simp only [Machine.exec, execStore, onNext_next, hg.reg, hg.writeWord, hg.advance]
  | add | sub | mul =>
    have hz := hz (by simp [Instr.mnemonic, zfOpcodes])
    simp only [Machine.exec, execAdd, execSub, execMul, State.sources, onNext_next, hg.reg, hg.writeArith hz,
      hg.advance]
  | div a b d =>
    have hz := hz (by simp [Instr.mnemonic, zfOpcodes])
    by_cases h : s.reg b = 0
    · rw [exec_div_zero a d h, exec_div_zero a d (by rwa [hg.reg]), onNext_next, hg.raise]
    · rw [exec_div a d h, exec_div a d (by rwa [hg.reg])]
      simp only [onNext_next, hg.reg, hg.cfg, hg.writeArith hz, hg.advance]
  | and | or | xor | not =>
    simp only [Machine.exec, execAnd, execOr, execXor, execNot, State.sources, State.writeLogic, onNext_next,
      hg.reg, hg.setReg, hg.advance]
  | push r =>
    cases h : below (s.reg .esp - 4) s.cfg.stackStart
    case false =>
      rw [exec_push r h, exec_push r (by rwa [hg.reg, hg.cfg])]
      simp only [onNext_next, hg.reg, hg.setReg, hg.writeWord, hg.advance]
    case true =>
      rw [exec_push_overflow r h, exec_push_overflow r (by rwa [hg.reg, hg.cfg])]
      simp only [onNext_next, hg.reg, hg.setReg, hg.raise]
  | pop r =>
    cases h : below (s.reg .esp) s.cfg.stackEnd
    case false =>
      rw [exec_pop_underflow r h, exec_pop_underflow r (by rwa [hg.reg, hg.cfg]), onNext_next, hg.raise]
    case true =>
      rw [exec_pop r h, exec_pop r (by rwa [hg.reg, hg.cfg])]
      simp only [onNext_next, hg.reg, hg.cfg, hg.peekWord, hg.addReports, hg.setReg, hg.advance]
  | jmp | call => exact congrArg _ (hg.pushAndJump s _)
  | jz t =>
    have hz := hz (by simp [Instr.mnemonic, zfOpcodes])
    rw [exec_jz, exec_jz, hz.zf, hg.pushAndJump, hg.advance, onNext_next, apply_ite g]
  | jnz t =>
    have hz := hz (by simp [Instr.mnemonic, zfOpcodes])
    rw [exec_jnz, exec_jnz, hz.zf, hg.pushAndJump, hg.advance, onNext_next, apply_ite g]
  | ret =>
    cases h : below (s.reg .esp) s.cfg.stackEnd
    case false =>
      rw [exec_ret_underflow h, exec_ret_underflow (by rwa [hg.reg, hg.cfg]), onNext_next, hg.raise]
    case true =>
      rw [exec_ret h, exec_ret (by rwa [hg.reg, hg.cfg])]
      simp only [onNext_next, hg.reg, hg.cfg, hg.peekWord, hg.addReports, hg.setReg, hg.setPc]

end

/-! Such a change: other reports made before (R22). -/

/-- The state with reports made before its own. -/
def State.logAfter (l : List BoundsReport) (s : State) : State := s.withErrlog (l ++ s.errlog)

theorem Unseen.logAfter (l : List BoundsReport) : Unseen (State.logAfter l) where
  reg s r := s.withErrlog_reg _ r
  pc _ := rfl
  peek _ _ := rfl
  cfg _ := rfl
  setReg _ _ _ := rfl
  setPc _ _ := rfl
  raise _ _ := rfl
  writeByte s a v := by
    cases h : valid s.cfg a <;>
      simp [State.writeByte, State.logAfter, h, State.report, State.withErrlog]
  addReports s k := by simp [State.logAfter, State.addReports, State.withErrlog]

theorem ZfUnseen.logAfter (l : List BoundsReport) : ZfUnseen (State.logAfter l) := ⟨fun _ => rfl, fun _ _ => rfl⟩

/-- A step does the same whatever was reported before it. -/
theorem step_logAfter (l : List BoundsReport) (s : State) :
    step (s.logAfter l) = onNext (State.logAfter l) (step s) := by
  have hg := Unseen.logAfter l
  have hfetch : (s.logAfter l).fetch = (s.fetch.1, s.fetch.2.logAfter l) := by
    rw [State.fetch_spec, State.fetch_spec, hg.addReports]
    rfl
  unfold step
  rw [show (s.logAfter l).cfg = s.cfg from rfl, show (s.logAfter l).status = s.status from rfl, hfetch]
  split
  next =>
    cases s.status with
    | fatal | halted => rfl
    | running =>
      rcases s.fetch with ⟨_ | i, s1⟩
      · rfl
      · exact hg.exec i s1 fun _ => .logAfter l
  next => rfl

/-- Settles O46: both steps are the step from the empty ERRLOG, with the earlier reports put before its own. -/
theorem reportLogIsOutputOnly : Obligations.ReportLogIsOutputOnly := by
  intro s l m
  have base (k : List BoundsReport) :
      step (s.withErrlog k) = onNext (State.logAfter k) (step (s.withErrlog [])) := by
    have hk : (s.withErrlog []).logAfter k = s.withErrlog k := by simp [State.logAfter, State.withErrlog]
    rw [← hk, step_logAfter]
  rw [base l, base m]
  cases step (s.withErrlog []) with
  | next t => exact ⟨t.errlog, rfl, rfl⟩
  | fault | refused => rfl

/-! Another such change: ZF itself (R17). -/

theorem Unseen.setZf (z : Bool) : Unseen (·.setZf z) where
  reg s r := s.setZf_reg z r
  pc _ := rfl
  peek _ _ := rfl
  cfg _ := rfl
  setReg _ _ _ := rfl
  setPc _ _ := rfl
  raise _ _ := rfl
  writeByte s a v := by
    cases h : valid s.cfg a <;> simp [State.writeByte, h] <;> rfl
  addReports _ _ := rfl

/-! What an instruction does to the latch, pc and ZF, said once. -/

/-- The four opcodes that write ZF (R17). -/
def zfWriters : List Mnemonic := [.add, .sub, .mul, .div]

/-- What executing `i` in `s` does to the latch, pc and ZF: the execute-time error is latched, if there is one, and
pc stays with it (R132), else pc is as the table of R15 says; ZF stays, but for its four writers (R17). -/
structure Controls (i : Instr) (s t : State) : Prop where
  fatal : t.fatal = (Claims.executeError s i).or s.fatal
  pc : t.pc = if (Claims.executeError s i).isSome then s.pc else Claims.pcAfter s i
  zf : i.mnemonic ∉ zfWriters → t.zf = s.zf

/-- An instruction that meets no error. -/
theorem Controls.completes {i : Instr} {s t : State} (herr : Claims.executeError s i = none)
    (hfatal : t.fatal = s.fatal) (hpc : t.pc = Claims.pcAfter s i) (hzf : i.mnemonic ∉ zfWriters → t.zf = s.zf) :
    Controls i s t :=
  ⟨by simp [herr, hfatal], by simp [herr, hpc], hzf⟩

/-- An instruction that raises. -/
theorem Controls.raises {i : Instr} {s t : State} {code : FatalCode} (herr : Claims.executeError s i = some code)
    (hfatal : t.fatal = some code) (hpc : t.pc = s.pc) (hzf : t.zf = s.zf) : Controls i s t :=
  ⟨by simp [herr, hfatal], by simp [herr, hpc], fun _ => hzf⟩

theorem pushError_of_below {s : State} (h : below (s.reg .esp - 4) s.cfg.stackStart = true) :
    Claims.pushError s = some .stackOverflow := by
  simpa [Claims.pushError, below] using h

theorem pushError_of_not_below {s : State} (h : below (s.reg .esp - 4) s.cfg.stackStart = false) :
    Claims.pushError s = none := by
  simpa [Claims.pushError, below] using h

theorem popError_of_below {s : State} (h : below (s.reg .esp) s.cfg.stackEnd = true) :
    Claims.popError s = none := by
  simpa [Claims.popError, below] using h

theorem popError_of_not_below {s : State} (h : below (s.reg .esp) s.cfg.stackEnd = false) :
    Claims.popError s = some .stackUnderflow := by
  simpa [Claims.popError, below] using h

/-- A taken jump, whichever instruction takes it (R115). -/
theorem Controls.pushAndJump {i : Instr} {s : State} {target : Word} (herr : Claims.executeError s i = Claims.pushError s)
    (hpc : Claims.pcAfter s i = target) : Controls i s (pushAndJump s target) := by
  cases h : below (s.reg .esp - 4) s.cfg.stackStart
  case false =>
    rw [pushAndJump_ok target h]
    exact .completes (herr.trans (pushError_of_not_below h)) (by simp) (by simp [hpc]) (by simp)
  case true =>
    rw [pushAndJump_overflow target h]
    exact .raises (herr.trans (pushError_of_below h)) rfl rfl rfl

/-- Every instruction answers a next state, and leaves the latch, pc and ZF there as its rule says. -/
theorem exec_controls (i : Instr) (s : State) : ∃ t, exec i s = .next t ∧ Controls i s t := by
  cases i with
  | mov | movi | and | or | xor | not => exact ⟨_, rfl, .completes rfl rfl rfl fun _ => rfl⟩
  | load d a => exact ⟨_, exec_load d a s, .completes rfl rfl rfl fun _ => rfl⟩
  | store =>
    exact ⟨_, rfl, .completes rfl (by simp) (by rw [State.advance_pc, State.writeWord_pc]; rfl) (by simp)⟩
  | add | sub | mul => exact ⟨_, rfl, .completes rfl rfl rfl (by simp [Instr.mnemonic, zfWriters])⟩
  | div a b d =>
    by_cases h : s.reg b = 0
    · exact ⟨_, exec_div_zero a d h, .raises (if_pos h) rfl rfl rfl⟩
    · exact ⟨_, exec_div a d h, .completes (if_neg h) rfl rfl (by simp [Instr.mnemonic, zfWriters])⟩
  | push r =>
    cases h : below (s.reg .esp - 4) s.cfg.stackStart
    case false =>
      exact ⟨_, exec_push r h, .completes (pushError_of_not_below h) (by simp)
        (by rw [State.advance_pc, State.writeWord_pc]; rfl) (by simp)⟩
    case true => exact ⟨_, exec_push_overflow r h, .raises (pushError_of_below h) rfl rfl rfl⟩
  | pop r =>
    cases h : below (s.reg .esp) s.cfg.stackEnd
    case false => exact ⟨_, exec_pop_underflow r h, .raises (popError_of_not_below h) rfl rfl rfl⟩
    case true => exact ⟨_, exec_pop r h, .completes (popError_of_below h) rfl rfl fun _ => rfl⟩
  | jmp | call => exact ⟨_, rfl, .pushAndJump rfl rfl⟩
  | jz t =>
    refine ⟨_, exec_jz t s, ?_⟩
    split
    next hzf => exact .pushAndJump (if_pos hzf) (if_pos hzf)
    next hzf => exact .completes (if_neg hzf) rfl (if_neg hzf).symm fun _ => rfl
  | jnz t =>
    refine ⟨_, exec_jnz t s, ?_⟩
    split
    next hzf => exact .completes (if_pos hzf) rfl (if_pos hzf).symm fun _ => rfl
    next hzf => exact .pushAndJump (if_neg hzf) (if_neg hzf)
  | ret =>
    cases h : below (s.reg .esp) s.cfg.stackEnd
    case false => exact ⟨_, exec_ret_underflow h, .raises (popError_of_not_below h) rfl rfl rfl⟩
    case true => exact ⟨_, exec_ret h, .completes (popError_of_below h) rfl rfl fun _ => rfl⟩

theorem Controls.of_exec {i : Instr} {s t : State} (h : exec i s = .next t) : Controls i s t := by
  obtain ⟨u, hu, hc⟩ := exec_controls i s
  obtain rfl : u = t := by simpa [hu] using h
  exact hc

/-! How an instruction and a step leave pc (R15). -/

/-- A step that raises leaves pc at the failing instruction (R132). -/
theorem step_pc_of_raised {s t : State} (h : step s = .next t) (ht : t.fatal ≠ none) : t.pc = s.pc := by
  rcases step_cases s with ⟨-, hstep⟩ | ⟨-, _, -, hstep⟩ | ⟨-, -, hstep⟩ | ⟨-, hrun, i, -, hstep⟩ |
    ⟨-, -, e, -, hstep⟩ <;> rw [hstep] at h
  · cases h
  · cases h
  · cases h; rfl
  · have hc := Controls.of_exec h
    have hnone : s.fatal = none := (s.status_running_iff.mp hrun).1
    have herr := hc.fatal
    rw [State.addReports_fatal, hnone, Option.or_none] at herr
    simpa [← herr, Option.isSome_iff_ne_none, ht] using hc.pc
  · cases h; rfl

/-- Settles O35: what each instruction does to the latch and pc is said by `Controls`. -/
theorem pcAfterEachOpcode : Obligations.PcAfterEachOpcode := by
  refine ⟨fun i s hnone => ?_, fun _ _ _ => step_pc_of_raised⟩
  obtain ⟨t, hexec, hc⟩ := exec_controls i s
  have herr : t.fatal = Claims.executeError s i := by rw [hc.fatal, hnone, Option.or_none]
  refine ⟨t, hexec, fun h => ?_, fun h => ?_⟩ <;> simpa [← herr, h, Option.isSome_iff_ne_none] using hc.pc

/-! ZF, its writers and its readers (R17). -/

/-- The zero-flag law: ZF says whether the word in the destination is zero (R96). -/
theorem State.writeArith_zf (s : State) (d : Reg) (r : Word) :
    (s.writeArith d r).zf = decide ((s.writeArith d r).reg d = 0) := by
  simp only [State.writeArith, State.setZf_zf, State.setZf_reg, State.setReg_reg, if_true]
  rfl

theorem zf_of_exec_div {a b d : Reg} {s t : State} (h : exec (.div a b d) s = .next t) :
    t.zf = if s.reg b = 0 then s.zf else decide (t.reg d = 0) := by
  by_cases hb : s.reg b = 0
  · obtain rfl : s.raise .divideByZero = t := by simpa [exec_div_zero a d hb] using h
    rw [if_pos hb]; rfl
  · obtain rfl : (s.writeArith d (divFn s.cfg (s.reg a) (s.reg b))).advance .div = t := by
      simpa [exec_div a d hb] using h
    rw [if_neg hb, State.advance_zf, State.advance_reg, State.writeArith_zf]

/-- Every instruction but JZ and JNZ does the same whatever ZF was: its writers write the same ZF, and the others
pass the ZF they were given on. -/
theorem exec_setZf {i : Instr} {s t : State} (z : Bool) (h : exec i s = .next t)
    (hi : i.mnemonic ∉ [Mnemonic.jz, .jnz]) : ∃ t', exec i (s.setZf z) = .next t' ∧ t'.setZf t.zf = t := by
  by_cases hz : i.mnemonic ∈ zfOpcodes
  case neg =>
    refine ⟨t.setZf z, ?_, rfl⟩
    rw [(Unseen.setZf z).exec i s (absurd · hz), h, onNext_next]
  case pos =>
    cases i with
    | add | sub | mul => exact ⟨t, h, rfl⟩
    | div a b d =>
      by_cases hb : s.reg b = 0
      · obtain rfl : s.raise .divideByZero = t := by simpa [exec_div_zero a d hb] using h
        exact ⟨_, exec_div_zero a d (by rwa [State.setZf_reg]), rfl⟩
      · refine ⟨t, ?_, rfl⟩
        rw [← h, exec_div a d hb, exec_div a d (by rwa [State.setZf_reg])]
        simp only [State.setZf_reg, State.setZf_cfg]
        rfl
    | jz | jnz => simp [Instr.mnemonic] at hi
    | _ => simp [Instr.mnemonic, zfOpcodes] at hz

/-- Settles O24: `Controls` for the instructions that leave ZF, `Unseen` for those that do not read it. -/
theorem zeroFlagWritersAndReaders : Obligations.ZeroFlagWritersAndReaders := by
  refine ⟨fun i s t h hi => (Controls.of_exec h).zf hi, fun a b d s t => ?_, fun i s t z => exec_setZf z,
    fun target s => ⟨fun hzf => ?_, fun hzf => ?_⟩⟩
  · refine ⟨?_, ?_, ?_, zf_of_exec_div⟩ <;> rintro ⟨⟩ <;> exact State.writeArith_zf s d _
  · rw [exec_jz, exec_jnz, if_pos hzf, if_pos hzf]
    exact ⟨rfl, rfl⟩
  · rw [exec_jz, exec_jnz, hzf]
    exact ⟨rfl, rfl⟩

/-! What a step appends to ERRLOG, and where a run stops or stays (R22, R133, R147). -/

/-- Settles O45: every step is a safe update. -/
theorem reportsAreOutOfRangeAndAppended : Obligations.ReportsAreOutOfRangeAndAppended :=
  fun _ _ hstep => (SafeUpdate.of_step hstep).errlog

/-- Settles O38: the step faults, so a run of one step or more ends there. -/
theorem fatalStatusIsTerminal : Obligations.FatalStatusIsTerminal := by
  intro s code hlegal hfatal
  have hstep := step_of_fatal hlegal hfatal
  exact ⟨hstep, fun n => run_succ_of_fault n hstep⟩

theorem step_of_halted {s : State} (hlegal : s.cfg.legal = true) (h : s.status = .halted) : step s = .next s := by
  simp [step, hlegal, h]

/-- A run from a state the step answers itself. -/
theorem run_of_step_self {s : State} (h : step s = .next s) (n : Nat) :
    Host.Core.run Sys2Proof.core n s = .next s := by
  induction n with
  | zero => rfl
  | succ n ih => rw [run_succ_of_next n h, ih]

/-- Settles O39: the status is read off pc and the latch, and a halted step repeats its state. -/
theorem haltedMachineStaysAsItIs : Obligations.HaltedMachineStaysAsItIs := by
  have running (s : State) (hnone : s.fatal = none) : s.status = .running ↔ s32 s.pc < (s.cfg.progEnd : Int) := by
    simp [State.status_running_iff, hnone, below]
  have halted (s : State) (hnone : s.fatal = none) : s.status = .halted ↔ (s.cfg.progEnd : Int) ≤ s32 s.pc := by
    simp [State.status_halted_iff, hnone, below]
  refine ⟨fun s hnone => ⟨running s hnone, halted s hnone⟩, State.status_fatal_iff, fun s hlegal hnone hpc => ?_⟩
  have hhalted := (halted s hnone).mpr hpc
  have hstep := step_of_halted hlegal hhalted
  exact ⟨hhalted, hstep, run_of_step_self hstep⟩

/-! Boot (R24). -/

theorem State.boot_wf {c : Config} (h : c.legal = true) : (State.boot c).wf = true := by
  rw [State.wf_iff]
  exact ⟨h, Memory.nil_wf, by simp [State.boot], by simp [State.boot]⟩

/-- Settles O49: boot lists no byte and no report. -/
theorem resetIsWellFormed : Obligations.ResetIsWellFormed :=
  ⟨State.boot_wf Tests.test_legal_default, fun _ => State.boot_wf⟩

@[simp] theorem State.boot_peek (c : Config) (a : Word) : (State.boot c).peek a = 0 := by
  simp [State.peek, State.boot, Memory.get]

/-- Settles O50, field by field. -/
theorem bootState : Obligations.BootState := by
  refine fun c => ⟨rfl, rfl, fun r hr => ?_, rfl, State.boot_peek c, rfl, ?_⟩
  · cases r with
    | esp => exact absurd rfl hr
    | _ => rfl
  · simp [State.status, State.boot, below, Config.progStart]

end Sys2Proof.Machine

/-! What the loader leaves in memory (R25, R69, R75, R76), and the first step from there (R123). -/

namespace Sys2Proof.Machine

/-! Bytes stored one after another. -/

/-- `t` is `s` with the bytes `bs` stored from address `n` on, and nothing else changed or reported. -/
structure Stores (n : Nat) (bs : List Byte) (s t : State) : Prop where
  regs : t.regs = s.regs
  pc : t.pc = s.pc
  zf : t.zf = s.zf
  fatal : t.fatal = s.fatal
  cfg : t.cfg = s.cfg
  errlog : t.errlog = s.errlog
  peek : ∀ b : Word, t.peek b =
    if n ≤ b.toNat ∧ b.toNat < n + bs.length then byteAt bs (b.toNat - n) else s.peek b

/-- An address below the memory's end is valid (R31). -/
theorem valid_ofNat {c : Config} (hc : c.memSize < 2 ^ 31) {n : Nat} (hn : n < c.memSize) :
    valid c (BitVec.ofNat 32 n) = true := by
  rw [valid_iff_toNat_lt hc, BitVec.toNat_ofNat]
  omega

theorem Stores.nil (n : Nat) (s : State) : Stores n [] s s :=
  ⟨rfl, rfl, rfl, rfl, rfl, rfl, fun b => by rw [if_neg (by simp)]⟩

/-- One byte stored, then the others from the next address on. -/
theorem Stores.cons {s t : State} {n : Nat} {b : Byte} {bs : List Byte} (hc : s.cfg.memSize < 2 ^ 31)
    (hn : n < s.cfg.memSize) (h : Stores (n + 1) bs (s.writeByte (BitVec.ofNat 32 n) b) t) :
    Stores n (b :: bs) s t where
  regs := by rw [h.regs, State.writeByte_regs]
  pc := by rw [h.pc, State.writeByte_pc]
  zf := by rw [h.zf, State.writeByte_zf]
  fatal := by rw [h.fatal, State.writeByte_fatal]
  cfg := by rw [h.cfg, State.writeByte_cfg]
  errlog := by
    rw [h.errlog, State.writeByte_errlog, reportsOf_eq_nil (by simpa using valid_ofNat hc hn), List.append_nil]
  peek a := by
    have hfirst : a = BitVec.ofNat 32 n ↔ a.toNat = n := by
      rw [← BitVec.toNat_inj, BitVec.toNat_ofNat, Nat.mod_eq_of_lt (by omega)]
    rw [h.peek, State.writeByte_peek, List.length_cons]
    rcases Nat.lt_trichotomy a.toNat n with hlt | heq | hgt
    · rw [if_neg (by omega), if_neg (by rw [hfirst]; omega), if_neg (by omega)]
    · have ha : a = BitVec.ofNat 32 n := hfirst.mpr heq
      rw [if_neg (by omega), if_pos ⟨ha, ha ▸ valid_ofNat hc hn⟩, if_pos (by omega), heq, Nat.sub_self,
        byteAt_cons_zero]
    · have hne : ¬ (a = BitVec.ofNat 32 n ∧ valid s.cfg a = true) := by
        rintro ⟨ha, -⟩
        have heq := hfirst.mp ha
        omega
      rw [if_neg hne, show a.toNat - n = a.toNat - (n + 1) + 1 by omega, byteAt_cons_succ]
      exact if_congr (by omega) rfl rfl

/-- Bytes written inside the buffer are stored there. -/
theorem State.writeBytes_stores {s : State} (hc : s.cfg.memSize < 2 ^ 31) {n : Nat} {bs : List Byte}
    (hfit : n + bs.length ≤ s.cfg.memSize) : Stores n bs s (s.writeBytes (BitVec.ofNat 32 n) bs) := by
  induction bs generalizing s n with
  | nil => exact .nil n s
  | cons b bs ih =>
    rw [List.length_cons] at hfit
    refine .cons hc (by omega) ?_
    have hcfg : (s.writeByte (BitVec.ofNat 32 n) b).cfg = s.cfg := s.writeByte_cfg _ b
    have hnext : BitVec.ofNat 32 n + 1 = BitVec.ofNat 32 (n + 1) := (BitVec.ofNat_add n 1).symm
    rw [State.writeBytes, hnext]
    exact ih (by rwa [hcfg]) (by rw [hcfg]; omega)

/-- Words written one after another are their bytes written one after another (R36, R37). -/
theorem State.writeWords_eq_writeBytes (s : State) (a : Word) (ws : List Word) :
    s.writeWords a ws = s.writeBytes a (ws.flatMap wordBytes) := by
  induction ws generalizing s a with
  | nil => rfl
  | cons w ws ih =>
    have h2 : a + 1 + 1 = a + 2 := by rw [BitVec.add_assoc]; rfl
    have h3 : a + 2 + 1 = a + 3 := by rw [BitVec.add_assoc]; rfl
    have h4 : a + 3 + 1 = a + 4 := by rw [BitVec.add_assoc]; rfl
    simp only [State.writeWords, ih, List.flatMap_cons, wordBytes, List.cons_append, List.nil_append,
      State.writeBytes, State.writeWord, h2, h3, h4]

theorem length_flatMap_wordBytes (ws : List Word) : (ws.flatMap wordBytes).length = 4 * ws.length := by
  induction ws with
  | nil => rfl
  | cons w ws ih =>
    have hword : (wordBytes w).length = 4 := rfl
    rw [List.flatMap_cons, List.length_append, ih, List.length_cons, hword]
    omega

/-- Byte `i` of word `k` of words laid out one after another. -/
theorem byteAt_flatMap_wordBytes {ws : List Word} {k i : Nat} (hk : k < ws.length) (hi : i < 4) :
    byteAt (ws.flatMap wordBytes) (4 * k + i) = wordByte (ws.getD k 0) i := by
  induction ws generalizing k with
  | nil => exact absurd hk (Nat.not_lt_zero k)
  | cons w ws ih =>
    cases k with
    | zero =>
      match i, hi with
      | 0, _ | 1, _ | 2, _ | 3, _ => rfl
    | succ k =>
      rw [show 4 * (k + 1) + i = 4 * k + i + 4 by omega]
      exact ih (Nat.lt_of_succ_lt_succ hk)

/-- The word at an address is the one whose bytes lie there (R35). -/
theorem State.peekWord_of_bytes {s : State} {a v : Word}
    (h : ∀ i < 4, s.peek (a + BitVec.ofNat 32 i) = wordByte v i) : s.peekWord a = v := by
  have h0 : s.peek a = wordByte v 0 := by simpa using h 0 (by omega)
  have h1 : s.peek (a + 1) = wordByte v 1 := h 1 (by omega)
  have h2 : s.peek (a + 2) = wordByte v 2 := h 2 (by omega)
  have h3 : s.peek (a + 3) = wordByte v 3 := h 3 (by omega)
  rw [State.peekWord, h0, h1, h2, h3, wordOfBytes_wordByte]

/-! The launch state. -/

/-- What a byte reads as after an image is loaded: the entry slot, the code, the data, or what it held. -/
def launchByte (s : State) (im : Image) (b : Word) : Byte :=
  if b.toNat < 8 then byteAt (encode s.cfg (.call im.start)) b.toNat
  else if b.toNat < 8 + im.code.length then byteAt im.code (b.toNat - 8)
  else if s.cfg.dataStart ≤ b.toNat ∧ b.toNat < s.cfg.dataStart + 4 * im.data.length then
    byteAt (im.data.flatMap wordBytes) (b.toNat - s.cfg.dataStart)
  else s.peek b

/-- `t` is the launch state of `im` made from `s` (R25). -/
structure Launched (s : State) (im : Image) (t : State) : Prop where
  regs : t.regs = s.regs
  pc : t.pc = s.pc
  zf : t.zf = s.zf
  fatal : t.fatal = s.fatal
  cfg : t.cfg = { s.cfg with progEnd := 8 + im.code.length }
  errlog : t.errlog = s.errlog
  peek : ∀ b, t.peek b = launchByte s im b

/-- An image of which code and data fit their segments is loaded, and makes the launch state. -/
theorem load_launched {s : State} {im : Image} (hlegal : s.cfg.legal = true)
    (hdata : 4 * im.data.length ≤ s.cfg.dataSize) (hcode : 8 + im.code.length ≤ s.cfg.programSize) :
    ∃ t, load s im = some t ∧ Launched s im t := by
  obtain ⟨-, hc, -⟩ := s.cfg.legal_iff.mp hlegal
  have hsize : s.cfg.memSize = s.cfg.programSize + s.cfg.dataSize + s.cfg.stackSize := rfl
  have hlen := length_flatMap_wordBytes im.data
  have hentry : (encode s.cfg (.call im.start)).length = 8 := rfl
  have h1 := State.writeBytes_stores (s := s) (n := s.cfg.dataStart) (bs := im.data.flatMap wordBytes) hc
    (by rw [hlen, hsize, Config.dataStart]; omega)
  rw [← State.writeWords_eq_writeBytes] at h1
  generalize hs1 : s.writeWords (BitVec.ofNat 32 s.cfg.dataStart) im.data = s1 at h1
  have h2 := State.writeBytes_stores (s := s1) (n := 8) (bs := im.code) (by rwa [h1.cfg])
    (by rw [h1.cfg, hsize]; omega)
  generalize hs2 : s1.writeBytes (BitVec.ofNat 32 8) im.code = s2 at h2
  have hc3 : (s2.sealEnd (8 + im.code.length)).cfg = { s.cfg with progEnd := 8 + im.code.length } := by
    rw [State.sealEnd, h2.cfg, h1.cfg]
  have h3 := State.writeBytes_stores (s := s2.sealEnd (8 + im.code.length)) (n := 0)
    (bs := encode s.cfg (.call im.start)) (by rw [hc3]; exact hc)
    (by rw [hc3, hentry]; change 8 ≤ s.cfg.memSize; omega)
  refine ⟨(s2.sealEnd (8 + im.code.length)).writeBytes (BitVec.ofNat 32 0) (encode s.cfg (.call im.start)), ?_,
    h3.regs.trans (h2.regs.trans h1.regs), h3.pc.trans (h2.pc.trans h1.pc), h3.zf.trans (h2.zf.trans h1.zf),
    h3.fatal.trans (h2.fatal.trans h1.fatal), h3.cfg.trans hc3, h3.errlog.trans (h2.errlog.trans h1.errlog),
    fun b => ?_⟩
  · rw [← hs2, ← hs1]
    exact if_pos (decide_eq_true hcode)
  · have hseal : (s2.sealEnd (8 + im.code.length)).peek b = s2.peek b := rfl
    rw [h3.peek, hseal, h2.peek, h1.peek, hentry, hlen, launchByte]
    rcases Nat.lt_or_ge b.toNat 8 with hslot | hslot
    · rw [if_pos (by omega), if_pos hslot, Nat.sub_zero]
    · rw [if_neg (by omega), if_neg (Nat.not_lt.mpr hslot)]
      exact if_congr (by omega) rfl rfl

theorem load_eq_none {s : State} {im : Image} (h : s.cfg.programSize < 8 + im.code.length) : load s im = none :=
  if_neg (by simpa [Image.fits, sealedEnd, codeStart, Config.progStart] using h)

section
variable {s t : State} {im : Image} (h : Launched s im t)
include h

/-- The sealed end lies inside the program segment, so the configuration stays legal (R4, R76). -/
theorem Launched.legal (hlegal : s.cfg.legal = true) (hcode : 8 + im.code.length ≤ s.cfg.programSize) :
    t.cfg.legal = true := by
  obtain ⟨hprog, hmem, -, hopc, hreg⟩ := s.cfg.legal_iff.mp hlegal
  rw [h.cfg, Config.legal_iff]
  exact ⟨hprog, hmem, hcode, hopc, hreg⟩

theorem Launched.peek_entry {b : Word} (hb : b.toNat < 8) :
    t.peek b = byteAt (encode s.cfg (.call im.start)) b.toNat := by
  rw [h.peek, launchByte, if_pos hb]

theorem Launched.peek_code {b : Word} (hlow : 8 ≤ b.toNat) (hhigh : b.toNat < 8 + im.code.length) :
    t.peek b = byteAt im.code (b.toNat - 8) := by
  rw [h.peek, launchByte, if_neg (by omega), if_pos hhigh]

theorem Launched.peek_data {b : Word} (hcode : 8 + im.code.length ≤ s.cfg.programSize)
    (hlow : s.cfg.dataStart ≤ b.toNat) (hhigh : b.toNat < s.cfg.dataStart + 4 * im.data.length) :
    t.peek b = byteAt (im.data.flatMap wordBytes) (b.toNat - s.cfg.dataStart) := by
  have hstart : s.cfg.dataStart = s.cfg.programSize := rfl
  rw [h.peek, launchByte, if_neg (by omega), if_neg (by omega), if_pos ⟨hlow, hhigh⟩]

theorem Launched.peek_other {b : Word} (hcode : 8 + im.code.length ≤ b.toNat)
    (hdata : ¬ (s.cfg.dataStart ≤ b.toNat ∧ b.toNat < s.cfg.dataStart + 4 * im.data.length)) :
    t.peek b = s.peek b := by
  rw [h.peek, launchByte, if_neg (by omega), if_neg (by omega), if_neg hdata]

/-- The word of the data segment that an image's data word makes (R69). -/
theorem Launched.peekWord_data (hc : s.cfg.memSize < 2 ^ 31) (hdata : 4 * im.data.length ≤ s.cfg.dataSize)
    (hcode : 8 + im.code.length ≤ s.cfg.programSize) {k : Nat} (hk : k < im.data.length) :
    t.peekWord (BitVec.ofNat 32 (s.cfg.dataStart + 4 * k)) = im.data.getD k 0 := by
  have hsize : s.cfg.memSize = s.cfg.dataStart + s.cfg.dataSize + s.cfg.stackSize := rfl
  have hbyte (i : Nat) (hi : i < 4) :
      t.peek (BitVec.ofNat 32 (s.cfg.dataStart + 4 * k) + BitVec.ofNat 32 i) = wordByte (im.data.getD k 0) i := by
    have hnat : (BitVec.ofNat 32 (s.cfg.dataStart + 4 * k) + BitVec.ofNat 32 i).toNat =
        s.cfg.dataStart + (4 * k + i) := by
      rw [← BitVec.ofNat_add, BitVec.toNat_ofNat]
      omega
    rw [h.peek_data hcode (by omega) (by omega), hnat, Nat.add_sub_cancel_left, byteAt_flatMap_wordBytes hk hi]
  exact State.peekWord_of_bytes hbyte

end

/-- Settles O52: every clause is read off the launch state. -/
theorem loadMakesTheLaunchState : Obligations.LoadMakesTheLaunchState := by
  refine fun s im hlegal hdata => ⟨load_eq_none, fun hcode => ?_⟩
  obtain ⟨-, hc, -⟩ := s.cfg.legal_iff.mp hlegal
  have hsize : s.cfg.memSize = s.cfg.programSize + s.cfg.dataSize + s.cfg.stackSize := rfl
  obtain ⟨t, hload, h⟩ := load_launched hlegal hdata hcode
  refine ⟨t, hload, fun k hk => ?_, fun k hk => ?_, fun k hk => h.peekWord_data hc hdata hcode hk,
    fun b => h.peek_other, h.cfg, h.legal hlegal hcode, fun r _ => State.reg_congr h.regs r, h.pc, h.zf, h.fatal,
    h.errlog⟩
  · have hnat : (BitVec.ofNat 32 k).toNat = k := BitVec.toNat_ofNat _ _ ▸ Nat.mod_eq_of_lt (by omega)
    rw [h.peek_entry (by omega), hnat]
  · have hnat : (BitVec.ofNat 32 (8 + k)).toNat = 8 + k := BitVec.toNat_ofNat _ _ ▸ Nat.mod_eq_of_lt (by omega)
    rw [h.peek_code (by omega) (by omega), hnat, Nat.add_sub_cancel_left]

/-! The entry instruction (R75, R123). -/

/-- The decode of an encoded `CALL`: the instruction, after reads of the opcode byte and the field (R55, R64). -/
theorem decodeTrace_encode_call {c : Config} (hlegal : c.legal = true) (target : Word) :
    decodeTrace c (encode c (.call target)) = ⟨[0, 4, 5, 6, 7], .ok (.call target)⟩ := by
  rw [decodeTrace_of_mnemonic (Config.mnemonicOf_opcByte hlegal .call)]
  have hfield : fieldAt (encode c (.call target)) = target := wordOfBytes_wordByte target
  simp only [decodeOperands, Decoded.formatJ, Decoded.field, hfield, Decoded.done, Decoded.reading]

/-- The bytes fetched at pc, if they are the eight of a list. -/
theorem State.window_eq {s : State} {bs : List Byte} (hlen : bs.length = 8)
    (h : ∀ k < 8, s.peek (s.operandAddr k) = byteAt bs k) : s.window = bs := by
  refine List.ext_getElem (by simp [State.window, hlen]) fun k hk hk' => ?_
  simp only [State.window, List.getElem_map, List.getElem_range]
  rw [h k (by omega), byteAt, List.getD_eq_getElem _ _ hk']

/-- A step over a `CALL` that lies in range at pc runs it, and its fetch reports nothing. -/
theorem step_call {s : State} {target : Word} (hlegal : s.cfg.legal = true) (hrun : s.status = .running)
    (hvalid : ∀ k < 8, valid s.cfg (s.operandAddr k) = true) (hwindow : s.window = encode s.cfg (.call target)) :
    step s = .next (pushAndJump s target) := by
  have htrace := decodeTrace_encode_call hlegal target
  have hreports : reportsOf s.cfg .read ([0, 4, 5, 6, 7].map s.operandAddr) = [] := by
    refine reportsOf_eq_nil fun a ha => ?_
    obtain ⟨k, hk, rfl⟩ := List.mem_map.mp ha
    exact hvalid k (by simp at hk; omega)
  simp only [step, hlegal, hrun, State.fetch_spec, hwindow, decode, htrace, hreports, State.addReports_nil, if_true]
  rfl

@[simp] theorem State.setPc_peekWord (s : State) (target a : Word) : (s.setPc target).peekWord a = s.peekWord a := rfl

/-- A word written in range reads back (R48). -/
theorem State.writeWord_peekWord {s : State} {a : Word} (v : Word) (h : Claims.WordValid s.cfg a) :
    (s.writeWord a v).peekWord a = v := by
  have hvalid (i : Nat) (hi : i < 4) : valid s.cfg (a + BitVec.ofNat 32 i) = true := by
    refine h _ ?_
    match i, hi with
    | 0, _ => simp [wordAddrs]
    | 1, _ | 2, _ | 3, _ => simp [wordAddrs]
  exact State.peekWord_of_bytes fun i hi => s.writeWord_peek_inside a v i hi (hvalid i hi)

/-! The first step after boot and a load (R123, R153). -/

/-- Four addresses below the memory's end are valid (R31). -/
theorem wordValid_ofNat {c : Config} (hc : c.memSize < 2 ^ 31) {n : Nat} (hn : n + 4 ≤ c.memSize) :
    Claims.WordValid c (BitVec.ofNat 32 n) := by
  intro b hb
  have hnext (i : Nat) (hi : i < 4) : valid c (BitVec.ofNat 32 n + BitVec.ofNat 32 i) = true := by
    rw [← BitVec.ofNat_add]
    exact valid_ofNat hc (by omega)
  simp only [wordAddrs, List.mem_cons, List.not_mem_nil, or_false] at hb
  rcases hb with rfl | rfl | rfl | rfl
  · exact valid_ofNat hc (by omega)
  · exact hnext 1 (by omega)
  · exact hnext 2 (by omega)
  · exact hnext 3 (by omega)

section
variable {c : Config} {im : Image} {t : State} (h : Launched (State.boot c) im t)
include h

theorem Launched.operandAddr_toNat {k : Nat} (hk : k < 8) : (t.operandAddr k).toNat = k := by
  have haddr : t.operandAddr k = BitVec.ofNat 32 k := by
    rw [State.operandAddr, h.pc]
    exact BitVec.zero_add _
  rw [haddr, BitVec.toNat_ofNat]
  omega

/-- The eight bytes at pc are the entry `CALL`. -/
theorem Launched.window : t.window = encode t.cfg (.call im.start) := by
  refine State.window_eq rfl fun k hk => ?_
  have hnat := h.operandAddr_toNat hk
  rw [h.peek_entry (by omega), hnat, h.cfg]
  rfl

/-- PROG_END is past the entry slot, so the machine runs (R146). -/
theorem Launched.running : t.status = .running := by
  rw [State.status_running_iff, h.fatal, h.pc, h.cfg]
  refine ⟨rfl, decide_eq_true ?_⟩
  change (0 : Int) < ((8 + im.code.length : Nat) : Int)
  omega

/-- The first step runs the entry `CALL`, and its fetch reports nothing. -/
theorem Launched.step (hlegal : c.legal = true) (hcode : 8 + im.code.length ≤ c.programSize) :
    step t = .next (pushAndJump t im.start) := by
  have hlegal' := h.legal hlegal hcode
  obtain ⟨hprog, hc, -⟩ := t.cfg.legal_iff.mp hlegal'
  have hsize : t.cfg.memSize = t.cfg.programSize + t.cfg.dataSize + t.cfg.stackSize := rfl
  refine step_call hlegal' h.running (fun k hk => ?_) h.window
  rw [valid_iff_toNat_lt hc, h.operandAddr_toNat hk]
  omega

/-- The slot the entry `CALL` pushes into: the last of the stack. -/
theorem Launched.slot (hstack : 4 ≤ c.stackSize) : t.reg .esp - 4 = BitVec.ofNat 32 (c.stackEnd - 4) := by
  have hesp : t.reg .esp = BitVec.ofNat 32 c.stackEnd := State.reg_congr h.regs .esp
  rw [hesp]
  exact BitVec.ofNat_sub_ofNat_of_le _ 4 (by decide) (by rw [Config.stackEnd]; omega)

/-- A stack of one slot or more holds the push (R107). -/
theorem Launched.fits (hc : c.memSize < 2 ^ 31) (hstack : 4 ≤ c.stackSize) :
    below (t.reg .esp - 4) t.cfg.stackStart = false := by
  have hend : c.memSize = c.stackStart + c.stackSize := rfl
  have hend' : c.stackEnd = c.memSize := rfl
  have hstart : t.cfg.stackStart = c.stackStart := by rw [h.cfg]; rfl
  have hint : s32 (t.reg .esp - 4) = ((c.stackEnd - 4 : Nat) : Int) := by
    rw [h.slot hstack, s32, BitVec.toInt_eq_toNat_of_lt] <;> rw [BitVec.toNat_ofNat] <;> omega
  rw [below, hint, hstart]
  exact decide_eq_false (by omega)

end

/-- Settles O53: the first step runs the entry `CALL`, whose push fits and lies in range. -/
theorem firstStepEntersStart : Obligations.FirstStepEntersStart := by
  intro c im hlegal hdata hcode hstack
  obtain ⟨-, hc, -⟩ := c.legal_iff.mp hlegal
  have hend : c.memSize = c.stackEnd := rfl
  have hsize : c.stackEnd = c.stackStart + c.stackSize := rfl
  obtain ⟨t, hload, h⟩ := load_launched (s := State.boot c) hlegal hdata hcode
  have hstep := h.step hlegal hcode
  have hpc : t.pc = 0 := h.pc
  have hword : Claims.WordValid t.cfg (BitVec.ofNat 32 (c.stackEnd - 4)) := by
    rw [h.cfg]
    exact wordValid_ofNat (c := c) hc (by omega)
  rw [pushAndJump_ok _ (h.fits hc hstack), h.slot hstack] at hstep
  refine ⟨t, _, hload, hstep, rfl, by simp, ?_, fun r hr => ?_, by simp, by simp [h.fatal, State.boot], ?_⟩
  · simp only [State.setPc_reg, State.writeWord_reg, State.setReg_reg, if_true, hpc, State.setPc_peekWord]
    exact State.writeWord_peekWord 0 hword
  · have hr : r ≠ .esp := by simpa using hr
    simp [hr]
  · simp [h.errlog, State.boot, reportsOf_eq_nil hword]

end Sys2Proof.Machine

/-! The memory unit's bytes and words (R31 to R37, R48), the bytes a fetch sees (R47), and the instruction placed
at pc (log 2). -/

namespace Sys2Proof.Machine

/-! A byte access on each side of the range test (R31, R33, R34). -/

/-- The validity test is R31's signed range. -/
theorem valid_iff {c : Config} {a : Word} : valid c a = true ↔ 0 ≤ s32 a ∧ s32 a < (c.memSize : Int) := by
  simp [valid, below]

/-- At a valid address the signed reading is the unsigned one (R31). -/
theorem s32_toNat_of_valid {c : Config} {a : Word} (h : valid c a = true) : (s32 a).toNat = a.toNat := by
  obtain ⟨hnonneg, -⟩ := valid_iff.mp h
  have hs : s32 a = if 2 * a.toNat < 2 ^ 32 then (a.toNat : Int) else (a.toNat : Int) - ↑(2 ^ 32 : Nat) :=
    BitVec.toInt_eq_toNat_cond a
  have hlt := a.isLt
  split at hs <;> omega

theorem State.readByte_of_valid {s : State} {a : Word} (h : valid s.cfg a = true) :
    s.readByte a = (Memory.get s.mem (s32 a).toNat, s) := by
  simp [State.readByte, State.peek, h, s32_toNat_of_valid h]

theorem State.readByte_of_not_valid {s : State} {a : Word} (h : valid s.cfg a = false) :
    s.readByte a = (0, s.report .read a) := by
  simp [State.readByte, s.peek_of_not_valid h, h]

theorem State.writeByte_of_not_valid {s : State} {a : Word} (v : Byte) (h : valid s.cfg a = false) :
    s.writeByte a v = s.report .write a := by
  simp [State.writeByte, h]

/-- A byte in a word is zero-extended (D22). -/
theorem toNat_wordOfBytes_low (b : Byte) : (wordOfBytes b 0 0 0).toNat = b.toNat := by
  have hword : wordOfBytes b 0 0 0 = b.setWidth 32 := by simp [wordOfBytes]
  rw [hword, BitVec.toNat_setWidth_of_le (by decide)]

/-- Settles O41: the two sides of the range test, and the zero extension. -/
theorem readByteRule : Obligations.ReadByteRule := by
  refine ⟨fun s a => ⟨fun hin => ?_, fun hout => ?_⟩, toNat_wordOfBytes_low⟩
  · exact State.readByte_of_valid (valid_iff.mpr hin)
  · exact State.readByte_of_not_valid (Bool.eq_false_iff.mpr (mt valid_iff.mp hout))

/-- Settles O42: the two sides of the range test; the frame is the byte write's own. -/
theorem writeByteRule : Obligations.WriteByteRule := by
  refine fun s a v => ⟨fun hin => ?_, fun hout => ?_⟩
  · have hvalid : valid s.cfg a = true := valid_iff.mpr hin
    have hlog : reportsOf s.cfg .write [a] = [] := reportsOf_eq_nil (by simpa using hvalid)
    refine ⟨by simp [State.writeByte_peek, hvalid], fun b hb => by simp [State.writeByte_peek, hb],
      fun r _ => State.reg_congr (s.writeByte_regs a v) r, s.writeByte_pc a v, s.writeByte_zf a v,
      s.writeByte_fatal a v, ?_, s.writeByte_cfg a v⟩
    rw [State.writeByte_errlog, hlog, List.append_nil]
  · exact State.writeByte_of_not_valid v (Bool.eq_false_iff.mpr (mt valid_iff.mp hout))

/-! The bytes of a word in memory (R35 to R37, R48). -/

/-- The four addresses of a word, by offset (R35). -/
theorem add_ofNat_mem_wordAddrs (a : Word) {k : Nat} (hk : k < 4) : a + BitVec.ofNat 32 k ∈ wordAddrs a := by
  match k, hk with
  | 0, _ => simp [wordAddrs]
  | 1, _ | 2, _ | 3, _ => simp [wordAddrs]

/-- Byte `k` of the word at an address is the byte `k` places further on (R35). -/
theorem State.wordByte_peekWord (s : State) (a : Word) {k : Nat} (hk : k < 4) :
    wordByte (s.peekWord a) k = s.peek (a + BitVec.ofNat 32 k) := by
  obtain ⟨h0, h1, h2, h3⟩ := wordByte_wordOfBytes (s.peek a) (s.peek (a + 1)) (s.peek (a + 2)) (s.peek (a + 3))
  match k, hk with
  | 0, _ => rw [State.peekWord, h0, BitVec.add_zero]
  | 1, _ => exact h1
  | 2, _ => exact h2
  | 3, _ => exact h3

theorem State.readByte_fst (s : State) (a : Word) : (s.readByte a).1 = s.peek a := by rw [State.readByte_spec]

theorem State.readWord_fst (s : State) (a : Word) : (s.readWord a).1 = s.peekWord a := by rw [State.readWord_spec]

/-- After a word write in range, byte `k` of it reads as the word's byte `k` (R36, R37). -/
theorem State.writeWord_peek_of_wordValid {s : State} {a : Word} (v : Word) (h : Claims.WordValid s.cfg a) {k : Nat}
    (hk : k < 4) : (s.writeWord a v).peek (a + BitVec.ofNat 32 k) = wordByte v k :=
  s.writeWord_peek_inside a v k hk (h _ (add_ofNat_mem_wordAddrs a hk))

/-- The word one byte on from a word written in range: its three upper bytes, then the next byte of memory (R37). -/
theorem State.writeWord_peekWord_succ {s : State} {a : Word} (v : Word) (h : Claims.WordValid s.cfg a) :
    (s.writeWord a v).peekWord (a + 1) =
      wordOfBytes (wordByte v 1) (wordByte v 2) (wordByte v 3) (s.peek (a + 4)) := by
  have h1 : (s.writeWord a v).peek (a + 1) = wordByte v 1 := s.writeWord_peek_of_wordValid v h (k := 1) (by decide)
  have h2 : (s.writeWord a v).peek (a + 2) = wordByte v 2 := s.writeWord_peek_of_wordValid v h (k := 2) (by decide)
  have h3 : (s.writeWord a v).peek (a + 3) = wordByte v 3 := s.writeWord_peek_of_wordValid v h (k := 3) (by decide)
  have hnext : a + 4 ∉ wordAddrs a := by
    simp only [wordAddrs, List.mem_cons, List.not_mem_nil, or_false]
    bv_omega
  have e1 : a + 1 + 1 = a + 2 := BitVec.add_assoc a 1 1
  have e2 : a + 1 + 2 = a + 3 := BitVec.add_assoc a 1 2
  have e3 : a + 1 + 3 = a + 4 := BitVec.add_assoc a 1 3
  rw [State.peekWord, e1, e2, e3, h1, h2, h3, s.writeWord_peek_outside a v _ hnext]

/-- The 32-bit field fetched at pc is the word four bytes on (R37, R57). -/
theorem State.fieldAt_window (s : State) : fieldAt s.window = s.peekWord (s.pc + 4) := by
  have e5 : s.pc + 4 + 1 = s.pc + 5 := BitVec.add_assoc s.pc 4 1
  have e6 : s.pc + 4 + 2 = s.pc + 6 := BitVec.add_assoc s.pc 4 2
  have e7 : s.pc + 4 + 3 = s.pc + 7 := BitVec.add_assoc s.pc 4 3
  rw [fieldAt, s.byteAt_window 4 (by decide), s.byteAt_window 5 (by decide), s.byteAt_window 6 (by decide),
    s.byteAt_window 7 (by decide), State.peekWord, e5, e6, e7]
  rfl

/-- Settles O43: a word written in range reads byte by byte and as a fetched field. -/
theorem wordsAreLittleEndian : Obligations.WordsAreLittleEndian := by
  refine ⟨fun s v h => ?_, fun s a v h => ?_⟩
  · rw [State.fieldAt_window, State.writeWord_pc, State.writeWord_peekWord v h]
  · have hbyte (k : Nat) (hk : k < 4) :
        ((s.writeWord a v).readByte (a + BitVec.ofNat 32 k)).1 = wordByte v k := by
      rw [State.readByte_fst, State.writeWord_peek_of_wordValid v h hk]
    refine ⟨hbyte, ?_⟩
    rintro rfl
    have hlowest := hbyte 0 (by decide)
    rw [BitVec.add_zero] at hlowest
    refine ⟨hlowest, hbyte 1 (by decide), hbyte 2 (by decide), hbyte 3 (by decide), ?_⟩
    rw [State.readWord_fst, State.writeWord_peekWord_succ _ h]
    rfl

/-- Settles O44: the round trip whole and byte by byte, and the segment bounds of R3. -/
theorem wordRoundTripAndSegments : Obligations.WordRoundTripAndSegments := by
  refine ⟨fun s a v h => ?_, fun s a v k hk => ?_, fun c n => ?_, fun c n => ?_⟩
  · rw [State.readWord_fst, State.writeWord_peekWord v h]
  · rw [State.readWord_fst, State.wordByte_peekWord _ _ hk]
    refine ⟨s.writeWord_peek_inside a v k hk, fun hout => ?_⟩
    exact State.peek_of_not_valid (by rwa [State.writeWord_cfg])
  · simp only [Config.memSize, Config.progStart, Config.dataStart, Config.stackStart, Config.stackEnd]
    omega
  · simp only [Config.progStart, Config.dataStart, Config.stackStart, Config.stackEnd]
    omega

/-! The bytes a fetch sees (R47). -/

theorem exec_store (r : Reg) (a : Word) (s : State) :
    exec (.store r a) s = .next ((s.writeWord a (s.reg r)).advance .store) := rfl

/-- Settles O13: the fetch reads the very bytes the store wrote. -/
theorem storeIsSeenByFetch : Obligations.StoreIsSeenByFetch := by
  refine fun r a s h => ⟨_, exec_store r a s, fun k hk => ?_⟩
  rw [State.byteAt_window _ k (by omega), State.operandAddr, State.setPc_pc, State.setPc_peek, State.advance_peek,
    State.writeWord_peek_of_wordValid (s.reg r) h hk]

end Sys2Proof.Machine

namespace Sys2Proof

/-! What a decode depends on: OPC, REGID, and at most the first eight bytes (R58 to R64). -/

section
variable {c c' : Config}

theorem Config.mnemonicOf_congr (h : c.opc = c'.opc) : c.mnemonicOf = c'.mnemonicOf := by
  have hbyte : c.opcByte = c'.opcByte := by
    funext m
    cases m <;> simp only [Config.opcByte, h]
  funext b
  simp only [Config.mnemonicOf, hbyte]

theorem Config.regOf_congr (h : c.regId = c'.regId) : c.regOf = c'.regOf := by
  have hbyte : c.regByte = c'.regByte := by
    funext r
    cases r <;> simp only [Config.regByte, h]
  funext b
  simp only [Config.regOf, hbyte]

theorem decodeOperands_congr (h : c.regId = c'.regId) : decodeOperands c = decodeOperands c' := by
  have hreg : Decoded.register c = Decoded.register c' := by
    funext bs off next
    simp only [Decoded.register, Config.regOf_congr h]
  funext bs m
  cases m <;>
    simp only [decodeOperands, Decoded.formatRR, Decoded.formatRI, Decoded.formatALU3, Decoded.formatR1, hreg]

/-- Configurations with the same OPC and REGID decode alike. -/
theorem decode_congr (hopc : c.opc = c'.opc) (hreg : c.regId = c'.regId) : decode c = decode c' := by
  funext bs
  simp only [decode, decodeTrace, Config.mnemonicOf_congr hopc, decodeOperands_congr hreg]

end

/-- A table word decodes to the instruction its eight bytes decode to (R66). -/
theorem decode_of_decodeTableWord {nbits w : Nat} {i : Instr} (h : decodeTableWord nbits w = some i) :
    decode Config.default (tableBytes nbits w) = .ok i := by
  unfold decodeTableWord at h
  split at h
  next j hdecode => rw [hdecode, Option.some.inj h]
  next => cases h

/-- Every byte the decode reads is one of the eight from the instruction's address on. -/
def Decoded.ReadsWindow (d : Decoded) : Prop := ∀ o ∈ d.reads, o < 8

theorem Decoded.ReadsWindow.done (i : Instr) : (Decoded.done i).ReadsWindow := fun _ ho => by cases ho

theorem Decoded.ReadsWindow.reading {d : Decoded} {off : Nat} (hoff : off < 8) (h : d.ReadsWindow) :
    (Decoded.reading off d).ReadsWindow := by
  intro o ho
  rcases List.mem_cons.mp ho with rfl | hrest
  · exact hoff
  · exact h o hrest

theorem Decoded.ReadsWindow.register {c : Config} {bs : List Byte} {off : Nat} {next : Reg → Decoded} (hoff : off < 8)
    (h : ∀ r, (next r).ReadsWindow) : (Decoded.register c bs off next).ReadsWindow := by
  refine .reading hoff ?_
  split
  · exact h _
  · exact fun _ ho => by cases ho

theorem Decoded.ReadsWindow.field {bs : List Byte} {next : Word → Decoded} (h : ∀ v, (next v).ReadsWindow) :
    (Decoded.field bs next).ReadsWindow :=
  .reading (by decide) (.reading (by decide) (.reading (by decide) (.reading (by decide) (h _))))

/-- No decode reads past the window (R50, R64). -/
theorem decodeTrace_readsWindow (c : Config) (bs : List Byte) : (decodeTrace c bs).ReadsWindow := by
  refine .reading (by decide) ?_
  split
  next => exact fun _ ho => by cases ho
  next m _ =>
    cases m with
    | mov => exact .register (by decide) fun _ => .register (by decide) fun _ => .done _
    | movi | load | store => exact .register (by decide) fun _ => .field fun _ => .done _
    | add | sub | mul | div | and | or | xor =>
      exact .register (by decide) fun _ => .register (by decide) fun _ => .register (by decide) fun _ => .done _
    | not | push | pop => exact .register (by decide) fun _ => .done _
    | jmp | jz | jnz | call => exact .field fun _ => .done _
    | ret => exact .done _

end Sys2Proof

namespace Sys2Proof.Machine

/-! The step over an instruction in range (R145). -/

/-- A step over eight bytes in range runs the instruction they decode to, and its fetch reports nothing (R145). -/
theorem step_of_decode {s : State} {i : Instr} (hruns : Claims.Runs s)
    (hvalid : ∀ k < 8, valid s.cfg (s.operandAddr k) = true) (hdecode : decode s.cfg s.window = .ok i) :
    step s = exec i s := by
  obtain ⟨hlegal, hrunning⟩ := hruns
  have hreports : reportsOf s.cfg .read ((decodeTrace s.cfg s.window).reads.map s.operandAddr) = [] := by
    refine reportsOf_eq_nil fun a ha => ?_
    obtain ⟨k, hk, rfl⟩ := List.mem_map.mp ha
    exact hvalid k (decodeTrace_readsWindow _ _ k hk)
  simp only [step, hlegal, hrunning, State.fetch_spec, hdecode, hreports, State.addReports_nil, if_true]

/-! Placing an instruction at pc (log 2). -/

/-- Where every byte is in range, placing bytes is writing them. -/
theorem State.place_eq_writeBytes {s : State} {a : Word} {bs : List Byte}
    (h : ∀ k < bs.length, valid s.cfg (a + BitVec.ofNat 32 k) = true) : s.place a bs = s.writeBytes a bs := by
  induction bs generalizing s a with
  | nil => rfl
  | cons b bs ih =>
    have hfirst : valid s.cfg a = true := by simpa using h 0 (by simp)
    have hstep : (if valid s.cfg a then { s with mem := Memory.set s.mem a.toNat b } else s) = s.writeByte a b := by
      rw [State.writeByte, if_pos hfirst, if_pos hfirst]
    rw [State.place, State.writeBytes, hstep]
    refine ih fun k hk => ?_
    have haddr : a + 1 + BitVec.ofNat 32 k = a + BitVec.ofNat 32 (k + 1) := by
      rw [BitVec.add_assoc, Nat.add_comm k 1, BitVec.ofNat_add]
      rfl
    rw [State.writeByte_cfg, haddr]
    exact h (k + 1) (by simpa using hk)

@[simp] theorem length_tableBytes (nbits w : Nat) : (tableBytes nbits w).length = 8 := by simp [tableBytes]

section
variable {s : State} (hc : s.cfg.memSize < 2 ^ 31) (hvalid : ∀ k < 8, valid s.cfg (s.operandAddr k) = true)
include hc hvalid

/-- In-range addresses from pc on do not wrap. -/
theorem State.operandAddr_toNat_of_valid {k : Nat} (hk : k < 8) : (s.operandAddr k).toNat = s.pc.toNat + k := by
  have hpc : s.pc.toNat < s.cfg.memSize := by simpa [State.operandAddr] using valid_toNat_lt (hvalid 0 (by decide))
  rw [State.operandAddr, BitVec.toNat_add, BitVec.toNat_ofNat]
  omega

/-- An instruction placed in range is stored at pc. -/
theorem State.withFetchWord_stores (nbits w : Nat) :
    Stores s.pc.toNat (tableBytes nbits w) s (s.withFetchWord nbits w) := by
  have hlast := valid_toNat_lt (hvalid 7 (by decide))
  rw [State.operandAddr_toNat_of_valid hc hvalid (by decide)] at hlast
  have hstores := State.writeBytes_stores (n := s.pc.toNat) (bs := tableBytes nbits w) hc
    (by rw [length_tableBytes]; omega)
  rw [BitVec.ofNat_toNat, BitVec.setWidth_eq] at hstores
  rw [State.withFetchWord, State.place_eq_writeBytes fun k hk => hvalid k (length_tableBytes nbits w ▸ hk)]
  exact hstores

/-- The bytes fetched are then the ones placed. -/
theorem State.window_withFetchWord (nbits w : Nat) : (s.withFetchWord nbits w).window = tableBytes nbits w := by
  have h := s.withFetchWord_stores hc hvalid nbits w
  refine State.window_eq (length_tableBytes nbits w) fun k hk => ?_
  have haddr : (s.withFetchWord nbits w).operandAddr k = s.operandAddr k := by
    rw [State.operandAddr, h.pc, State.operandAddr]
  rw [haddr, h.peek, State.operandAddr_toNat_of_valid hc hvalid hk, length_tableBytes, if_pos (by omega),
    Nat.add_sub_cancel_left]

end

/-- Settles O8: the bytes placed are the bytes fetched, and they decode as under the default configuration. -/
theorem placedInstructionRunsNext : Obligations.PlacedInstructionRunsNext := by
  intro s nbits w i hruns hopc hreg hvalid htable
  have ⟨hlegal, _⟩ := hruns
  obtain ⟨-, hc, -⟩ := s.cfg.legal_iff.mp hlegal
  have h := s.withFetchWord_stores hc hvalid nbits w
  have hdecode : decode (s.withFetchWord nbits w).cfg (s.withFetchWord nbits w).window = .ok i := by
    rw [h.cfg, State.window_withFetchWord hc hvalid, decode_congr (c' := Config.default) hopc hreg,
      decode_of_decodeTableWord htable]
  have hruns' : Claims.Runs (s.withFetchWord nbits w) := by
    rw [Claims.Runs, State.status_running_iff, h.fatal, h.pc, h.cfg, ← State.status_running_iff]
    exact hruns
  have hvalid' (k : Nat) (hk : k < 8) :
      valid (s.withFetchWord nbits w).cfg ((s.withFetchWord nbits w).operandAddr k) = true := by
    rw [State.operandAddr, h.cfg, h.pc]
    exact hvalid k hk
  exact ⟨step_of_decode hruns' hvalid' hdecode, fun r _ => State.reg_congr h.regs r, h.pc, h.zf, h.fatal, h.errlog,
    h.cfg⟩

end Sys2Proof.Machine

/-! The encoding, both ways: what a decode reads and when it raises, said once for every opcode; the bytes an
instruction fixes, which are the bytes it decodes from; and the pads, which are neither (R50 to R65). -/

namespace Sys2Proof

/-! What a decode reads, and when it raises (R58, R61, R64). -/

/-- The offsets an opcode's decode reads, in order: the opcode byte, the register bytes, the 32-bit field (R64). -/
def Mnemonic.readOffsets (m : Mnemonic) : List Nat := 0 :: (m.format.regOffsets ++ m.format.fieldOffsets)

/-- A decode of operands with register bytes at `regs` and then the bytes at `fields`: it reads them in that order,
finds an instruction if every register byte names a register, and else stops at one that names none. -/
structure Decoded.Follows (c : Config) (bs : List Byte) (regs fields : List Nat) (d : Decoded) : Prop where
  reads_prefix : d.reads <+: regs ++ fields
  completes : (∀ o ∈ regs, c.regOf (byteAt bs o) ≠ none) → d.reads = regs ++ fields ∧ ∃ i, d.result = .ok i
  raises : (∃ o ∈ regs, c.regOf (byteAt bs o) = none) → d.result = .error .invalidRegister

section
variable {c : Config} {bs : List Byte}

theorem Decoded.Follows.done (i : Instr) : (Decoded.done i).Follows c bs [] [] where
  reads_prefix := List.nil_prefix
  completes _ := ⟨rfl, i, rfl⟩
  raises h := by simp at h

theorem Decoded.Follows.field (f : Word → Instr) :
    (Decoded.field bs fun v => Decoded.done (f v)).Follows c bs [] [4, 5, 6, 7] where
  reads_prefix := List.prefix_refl _
  completes _ := ⟨rfl, f (fieldAt bs), rfl⟩
  raises h := by simp at h

theorem Decoded.Follows.register {off : Nat} {regs fields : List Nat} {next : Reg → Decoded}
    (h : ∀ r, (next r).Follows c bs regs fields) :
    (Decoded.register c bs off next).Follows c bs (off :: regs) fields := by
  cases hr : c.regOf (byteAt bs off) with
  | none =>
    rw [Decoded.register_none next hr]
    refine ⟨by simp, fun hall => absurd hr (hall off (by simp)), fun _ => rfl⟩
  | some r =>
    rw [Decoded.register_some next hr]
    refine ⟨List.prefix_cons_inj off |>.mpr (h r).reads_prefix, fun hall => ?_, fun ⟨o, ho, hnone⟩ => ?_⟩
    · obtain ⟨hreads, hok⟩ := (h r).completes fun o ho => hall o (by simp [ho])
      exact ⟨congrArg (off :: ·) hreads, hok⟩
    · rcases List.mem_cons.mp ho with rfl | ho
      · simp [hr] at hnone
      · exact (h r).raises ⟨o, ho, hnone⟩

/-- Every opcode's decode goes through the bytes of its format. -/
theorem decodeOperands_follows (c : Config) (bs : List Byte) (m : Mnemonic) :
    (decodeOperands c bs m).Follows c bs m.format.regOffsets m.format.fieldOffsets := by
  cases m with
  | mov => exact .register fun _ => .register fun _ => .done _
  | movi | load | store => exact .register fun _ => .field _
  | add | sub | mul | div | and | or | xor =>
    exact .register fun _ => .register fun _ => .register fun _ => .done _
  | not | push | pop => exact .register fun _ => .done _
  | jmp | jz | jnz | call => exact .field _
  | ret => exact .done _

/-- The reads of a decode are the first of its opcode's offsets, all of them or fewer (R64). -/
theorem decodeTrace_reads_prefix {m : Mnemonic} (h : c.mnemonicOf (byteAt bs 0) = some m) :
    (decodeTrace c bs).reads <+: m.readOffsets := by
  rw [decodeTrace_of_mnemonic h]
  exact List.prefix_cons_inj 0 |>.mpr (decodeOperands_follows c bs m).reads_prefix

/-- With a known opcode, a decode raises InvalidRegister exactly for a register byte that names none (R61). -/
theorem decode_invalidRegister_iff {m : Mnemonic} (h : c.mnemonicOf (byteAt bs 0) = some m) :
    decode c bs = .error .invalidRegister ↔ ∃ o ∈ m.format.regOffsets, c.regOf (byteAt bs o) = none := by
  have hfollows := decodeOperands_follows c bs m
  rw [decode, decodeTrace_of_mnemonic h]
  refine ⟨fun herr => ?_, hfollows.raises⟩
  by_contra! hall
  obtain ⟨-, i, hok⟩ := hfollows.completes hall
  exact nomatch hok.symm.trans herr

/-- A decode that finds an instruction has made all the reads of its opcode (R64). -/
theorem decodeTrace_reads_of_ok {m : Mnemonic} {i : Instr} (h : c.mnemonicOf (byteAt bs 0) = some m)
    (hok : decode c bs = .ok i) : (decodeTrace c bs).reads = m.readOffsets := by
  have hnames : ∀ o ∈ m.format.regOffsets, c.regOf (byteAt bs o) ≠ none := by
    intro o ho hnone
    rw [(decode_invalidRegister_iff h).mpr ⟨o, ho, hnone⟩] at hok
    cases hok
  rw [decodeTrace_of_mnemonic h]
  exact congrArg (0 :: ·) ((decodeOperands_follows c bs m).completes hnames).1

/-! The bytes an instruction fixes (R51 to R57). -/

/-- The bytes have, at every offset the instruction's decode reads, the byte of its encoding. -/
def Spells (c : Config) (bs : List Byte) (i : Instr) : Prop :=
  ∀ o ∈ i.mnemonic.readOffsets, byteAt (encode c i) o = byteAt bs o

theorem length_encode (c : Config) (i : Instr) : (encode c i).length = i.mnemonic.length := by
  cases i <;> rfl

theorem Mnemonic.lt_length_of_mem_readOffsets {m : Mnemonic} : ∀ o ∈ m.readOffsets, o < m.length := by
  cases m <;> decide

/-- An encoding spells its instruction, whatever follows it. -/
theorem spells_encode (c : Config) (i : Instr) (rest : List Byte) : Spells c (encode c i ++ rest) i := by
  intro o ho
  have hlt : o < (encode c i).length := length_encode c i ▸ Mnemonic.lt_length_of_mem_readOffsets o ho
  rw [byteAt, byteAt, List.getD_append _ _ _ _ hlt]

/-- The 32-bit field read is the word whose four bytes stand at its offsets (R57). -/
theorem fieldAt_eq_iff {w : Word} : fieldAt bs = w ↔ wordByte w 0 = byteAt bs 4 ∧ wordByte w 1 = byteAt bs 5 ∧
    wordByte w 2 = byteAt bs 6 ∧ wordByte w 3 = byteAt bs 7 := by
  refine ⟨?_, fun ⟨h4, h5, h6, h7⟩ => ?_⟩
  · rintro rfl
    exact wordByte_wordOfBytes _ _ _ _
  · rw [fieldAt, ← h4, ← h5, ← h6, ← h7, wordOfBytes_wordByte]

/-- The operand bytes hold the instruction's registers and its 32-bit field, as its format places them (R51 to R57). -/
def OperandsAt (c : Config) (bs : List Byte) : Instr → Prop
  | .mov d s => c.regByte d = byteAt bs 1 ∧ c.regByte s = byteAt bs 2
  | .movi r w | .load r w | .store r w => c.regByte r = byteAt bs 1 ∧ fieldAt bs = w
  | .add s1 s2 d | .sub s1 s2 d | .mul s1 s2 d | .div s1 s2 d | .and s1 s2 d | .or s1 s2 d | .xor s1 s2 d =>
    c.regByte s1 = byteAt bs 1 ∧ c.regByte s2 = byteAt bs 2 ∧ c.regByte d = byteAt bs 3
  | .not r | .push r | .pop r => c.regByte r = byteAt bs 1
  | .jmp w | .jz w | .jnz w | .call w => fieldAt bs = w
  | .ret => True

/-- What the bytes of an instruction are: its opcode byte, then its operands. -/
theorem spells_iff {i : Instr} : Spells c bs i ↔ c.opcByte i.mnemonic = byteAt bs 0 ∧ OperandsAt c bs i := by
  cases i <;>
    simp [Spells, OperandsAt, Instr.mnemonic, Mnemonic.readOffsets, Mnemonic.format, Format.regOffsets,
      Format.fieldOffsets, encode, encodeOperands, wordBytes, fieldAt_eq_iff]

/-- A register byte that names a register decodes to it, and the decode goes on (R58). -/
theorem Decoded.register_of_regByte (hlegal : c.legal = true) {off : Nat} {r : Reg} (next : Reg → Decoded)
    (h : c.regByte r = byteAt bs off) : Decoded.register c bs off next = Decoded.reading off (next r) :=
  Decoded.register_some next (h ▸ Config.regOf_regByte hlegal r)

/-- Under a legal configuration the decode finds the operands that are there. -/
theorem decodeOperands_of_operandsAt (hlegal : c.legal = true) {i : Instr} (h : OperandsAt c bs i) :
    (decodeOperands c bs i.mnemonic).result = .ok i := by
  have hreg {off : Nat} {r : Reg} (next : Reg → Decoded) (hr : c.regByte r = byteAt bs off) :=
    Decoded.register_of_regByte hlegal next hr
  cases i with
  | mov =>
    obtain ⟨hd, hs⟩ := h
    simp only [Instr.mnemonic, decodeOperands, Decoded.formatRR, hreg _ hd, hreg _ hs]
    rfl
  | movi | load | store =>
    obtain ⟨hr, hw⟩ := h
    simp only [Instr.mnemonic, decodeOperands, Decoded.formatRI, hreg _ hr, Decoded.field, hw]
    rfl
  | add | sub | mul | div | and | or | xor =>
    obtain ⟨h1, h2, hd⟩ := h
    simp only [Instr.mnemonic, decodeOperands, Decoded.formatALU3, hreg _ h1, hreg _ h2, hreg _ hd]
    rfl
  | not | push | pop =>
    simp only [Instr.mnemonic, decodeOperands, Decoded.formatR1, hreg _ h]
    rfl
  | jmp | jz | jnz | call => exact congrArg _ (congrArg _ h)
  | ret => rfl

/-- Under a legal configuration bytes that spell an instruction decode to it, whatever their pads and whatever
follows. -/
theorem decode_of_spells (hlegal : c.legal = true) {i : Instr} (h : Spells c bs i) : decode c bs = .ok i := by
  obtain ⟨hop, hoperands⟩ := spells_iff.mp h
  rw [decode, decodeTrace_of_mnemonic (hop ▸ Config.mnemonicOf_opcByte hlegal i.mnemonic)]
  exact decodeOperands_of_operandsAt hlegal hoperands

/-- Settles O1: an encoding spells its instruction, and what spells an instruction decodes to it. -/
theorem decodeEncodeRoundTrip : Obligations.DecodeEncodeRoundTrip :=
  fun c hlegal i _ rest => ⟨decode_of_spells hlegal (spells_encode c i rest), length_encode c i⟩

/-! The other way: decoded bytes spell the instruction. -/

/-- A register field that lets a decode end well holds the byte of the register it goes on with. -/
theorem Decoded.register_ok {off : Nat} {next : Reg → Decoded} {i : Instr}
    (h : (Decoded.register c bs off next).result = .ok i) :
    ∃ r, c.regByte r = byteAt bs off ∧ (next r).result = .ok i := by
  cases hr : c.regOf (byteAt bs off) with
  | none => simp [Decoded.register_none next hr] at h
  | some r =>
    rw [Decoded.register_some next hr] at h
    exact ⟨r, Config.regByte_of_regOf hr, h⟩

/-- Operands a decode found are there, and they are the opcode's own. -/
theorem operandsAt_of_decodeOperands {m : Mnemonic} {i : Instr} (h : (decodeOperands c bs m).result = .ok i) :
    i.mnemonic = m ∧ OperandsAt c bs i := by
  cases m with
  | mov =>
    obtain ⟨d, hd, h⟩ := Decoded.register_ok h
    obtain ⟨s, hs, h⟩ := Decoded.register_ok h
    cases h
    exact ⟨rfl, hd, hs⟩
  | movi | load | store =>
    obtain ⟨r, hr, h⟩ := Decoded.register_ok h
    cases h
    exact ⟨rfl, hr, rfl⟩
  | add | sub | mul | div | and | or | xor =>
    obtain ⟨s1, h1, h⟩ := Decoded.register_ok h
    obtain ⟨s2, h2, h⟩ := Decoded.register_ok h
    obtain ⟨d, hd, h⟩ := Decoded.register_ok h
    cases h
    exact ⟨rfl, h1, h2, hd⟩
  | not | push | pop =>
    obtain ⟨r, hr, h⟩ := Decoded.register_ok h
    cases h
    exact ⟨rfl, hr⟩
  | jmp | jz | jnz | call =>
    cases h
    exact ⟨rfl, rfl⟩
  | ret =>
    cases h
    exact ⟨rfl, trivial⟩

/-- Bytes that decode to an instruction spell it, and their opcode byte is its own. -/
theorem spells_of_decode {i : Instr} (h : decode c bs = .ok i) :
    c.mnemonicOf (byteAt bs 0) = some i.mnemonic ∧ Spells c bs i := by
  cases hop : c.mnemonicOf (byteAt bs 0) with
  | none => simp [decode, decodeTrace_invalid_opcode hop] at h
  | some m =>
    rw [decode, decodeTrace_of_mnemonic hop] at h
    obtain ⟨rfl, hoperands⟩ := operandsAt_of_decodeOperands h
    exact ⟨rfl, spells_iff.mpr ⟨Config.opcByte_of_mnemonicOf hop, hoperands⟩⟩

/-- Settles O2: bytes that decode spell their instruction, and all of its offsets are read. -/
theorem decodedBytesAreTheEncoding : Obligations.DecodedBytesAreTheEncoding := by
  intro c bs i h
  obtain ⟨hop, hspells⟩ := spells_of_decode h
  have hreads := decodeTrace_reads_of_ok hop h
  exact ⟨hreads, fun o ho => hspells o (hreads ▸ ho)⟩

/-! Pads (R62). -/

/-- No pad of an opcode's format is among the bytes its decode reads. -/
theorem Mnemonic.padOffsets_disjoint_readOffsets {m : Mnemonic} : ∀ o ∈ m.format.padOffsets, o ∉ m.readOffsets := by
  cases m <;> decide

theorem encode_pad (c : Config) (i : Instr) : ∀ o ∈ i.mnemonic.format.padOffsets, (encode c i)[o]? = some 0 := by
  cases i <;> simp [Instr.mnemonic, Mnemonic.format, Format.padOffsets, encode, encodeOperands]

/-- The decode of operands looks at the bytes of its format alone. -/
theorem decodeOperands_congr_bytes {bs' : List Byte} {m : Mnemonic}
    (h : ∀ o ∈ m.readOffsets, byteAt bs' o = byteAt bs o) : decodeOperands c bs' m = decodeOperands c bs m := by
  cases m with
  | mov =>
    simp only [decodeOperands, Decoded.formatRR, Decoded.register, h 1 (by decide), h 2 (by decide)]
  | movi | load | store =>
    simp only [decodeOperands, Decoded.formatRI, Decoded.register, Decoded.field, fieldAt, h 1 (by decide),
      h 4 (by decide), h 5 (by decide), h 6 (by decide), h 7 (by decide)]
  | add | sub | mul | div | and | or | xor =>
    simp only [decodeOperands, Decoded.formatALU3, Decoded.register, h 1 (by decide), h 2 (by decide),
      h 3 (by decide)]
  | not | push | pop => simp only [decodeOperands, Decoded.formatR1, Decoded.register, h 1 (by decide)]
  | jmp | jz | jnz | call =>
    simp only [decodeOperands, Decoded.formatJ, Decoded.field, fieldAt, h 4 (by decide), h 5 (by decide),
      h 6 (by decide), h 7 (by decide)]
  | ret => rfl

/-- A decode looks at the bytes its opcode has it read, and at no other. -/
theorem decodeTrace_congr_bytes {bs' : List Byte} {m : Mnemonic} (hop : c.mnemonicOf (byteAt bs 0) = some m)
    (h : ∀ o ∈ m.readOffsets, byteAt bs' o = byteAt bs o) : decodeTrace c bs' = decodeTrace c bs := by
  have hop' : c.mnemonicOf (byteAt bs' 0) = some m := h 0 (List.mem_cons_self ..) ▸ hop
  rw [decodeTrace_of_mnemonic hop, decodeTrace_of_mnemonic hop', decodeOperands_congr_bytes h]

end

/-- Settles O3: no pad is among the bytes an opcode's decode reads, and it looks at no other byte. -/
theorem padBytesCarryNothing : Obligations.PadBytesCarryNothing := by
  refine ⟨encode_pad, fun c bs m hop o ho hread => ?_, fun c bs bs' m hop h => ?_⟩
  · exact Mnemonic.padOffsets_disjoint_readOffsets o ho ((decodeTrace_reads_prefix hop).subset hread)
  · exact decodeTrace_congr_bytes hop fun o ho => h o fun hpad => Mnemonic.padOffsets_disjoint_readOffsets o hpad ho

/-- Settles O6: each word's bytes run through the decoder. -/
theorem tableWordsDecode : Obligations.TableWordsDecode :=
  ⟨by decide, by decide, by decide, by decide, by decide, by decide, by decide, by decide, by decide⟩

end Sys2Proof

/-! What a step does with what it fetched: the instruction that was decoded, or the error the decode raised
(R60, R61, R64, R145). -/

namespace Sys2Proof.Machine

/-- A step of a running machine over bytes that decode runs the instruction, after the reports of the fetch. -/
theorem step_of_decode_ok {s : State} {i : Instr} (hruns : Claims.Runs s) (h : decode s.cfg s.window = .ok i) :
    step s = exec i (s.addReports
      (reportsOf s.cfg .read ((decodeTrace s.cfg s.window).reads.map s.operandAddr))) := by
  obtain ⟨hlegal, hrunning⟩ := hruns
  simp only [step, hlegal, hrunning, State.fetch_spec, h, if_true]

/-- A step of a running machine over bytes that do not decode latches the error, after the reports of the fetch. -/
theorem step_of_decode_error {s : State} {e : DecodeError} (hruns : Claims.Runs s)
    (h : decode s.cfg s.window = .error e) :
    step s = .next ((s.addReports
      (reportsOf s.cfg .read ((decodeTrace s.cfg s.window).reads.map s.operandAddr))).raise (fatalOfDecode e)) := by
  obtain ⟨hlegal, hrunning⟩ := hruns
  simp only [step, hlegal, hrunning, State.fetch_spec, h, if_true]

/-- Settles O7: with every byte read in range the fetch reports nothing. -/
theorem stepRunsDecodedInstruction : Obligations.StepRunsDecodedInstruction := by
  intro s i hruns hdecode _
  have hstep := step_of_decode_ok hruns hdecode
  refine ⟨hstep, fun hvalid => ?_⟩
  have hreports : reportsOf s.cfg .read ((decodeTrace s.cfg s.window).reads.map s.operandAddr) = [] :=
    reportsOf_eq_nil (List.forall_mem_map.mpr hvalid)
  rw [hstep, hreports, State.addReports_nil]

/-! The opcode byte (R60). -/

@[simp] theorem State.operandAddr_zero (s : State) : s.operandAddr 0 = s.pc := BitVec.add_zero _

@[simp] theorem State.byteAt_window_zero (s : State) : byteAt s.window 0 = s.peek s.pc := by
  rw [s.byteAt_window 0 (by decide), State.operandAddr_zero]

/-- The default OPC is 0x01 to 0x13 in the order of the table (R59). -/
theorem map_opcByte_default :
    Mnemonic.all.map Config.default.opcByte = (List.range 19).map fun k => BitVec.ofNat 8 (k + 1) := by
  decide

/-- The bytes that are opcode bytes under the default OPC (R59). -/
theorem opcByte_default_iff (b : Byte) :
    (∃ m, Config.default.opcByte m = b) ↔ 1 ≤ b.toNat ∧ b.toNat < 0x14 := by
  have himage : (∃ m, Config.default.opcByte m = b) ↔ ∃ k < 19, BitVec.ofNat 8 (k + 1) = b := by
    have hmem : b ∈ Mnemonic.all.map Config.default.opcByte ↔ ∃ m, Config.default.opcByte m = b := by
      simp [Mnemonic.mem_all]
    rw [← hmem, map_opcByte_default]
    simp
  rw [himage]
  refine ⟨?_, fun ⟨hlow, hhigh⟩ => ⟨b.toNat - 1, by omega, ?_⟩⟩
  · rintro ⟨k, hk, rfl⟩
    rw [BitVec.toNat_ofNat]
    omega
  · rw [Nat.sub_add_cancel hlow, BitVec.ofNat_toNat, BitVec.setWidth_eq]

/-- Settles O4: the decode stops at the opcode byte, after that one read. -/
theorem opcodeOutsideTheTableIsFatal : Obligations.OpcodeOutsideTheTableIsFatal := by
  refine ⟨fun s hruns hout => ?_, fun b => ?_⟩
  · have hop : s.cfg.mnemonicOf (byteAt s.window 0) = none := by
      rw [s.byteAt_window_zero, Config.mnemonicOf_eq_none]
      exact hout
    have htrace := decodeTrace_invalid_opcode hop
    rw [step_of_decode_error hruns (congrArg Decoded.result htrace), htrace, List.map_singleton,
      s.operandAddr_zero, fatalOfDecode]
  · have hzero : b = 0 ↔ b.toNat = 0 := by rw [← BitVec.toNat_inj]; rfl
    rw [← not_exists, opcByte_default_iff, hzero]
    omega

/-! The register bytes (R61, R127). -/

theorem kind_of_mem_reportsOf {c : Config} {k : AccessKind} {l : List Word} {r : BoundsReport}
    (h : r ∈ reportsOf c k l) : r.kind = k := by
  obtain ⟨a, -, rfl⟩ := List.mem_map.mp h
  rfl

theorem Mnemonic.regOffset_lt_eight {m : Mnemonic} : ∀ o ∈ m.format.regOffsets, o < 8 := by
  cases m <;> decide

/-- Settles O5: with a known opcode the decode raises InvalidRegister exactly for such a byte, and the jump class and
RET have no register field. -/
theorem registerByteOutsideTheTableIsFatal : Obligations.RegisterByteOutsideTheTableIsFatal := by
  refine ⟨fun s m hruns hop ⟨o, ho, hout⟩ => ?_, fun c bs m hm hop herr => ?_⟩
  · rw [← s.byteAt_window_zero] at hop
    rw [← s.byteAt_window o (Mnemonic.regOffset_lt_eight o ho)] at hout
    have hdecode : decode s.cfg s.window = .error .invalidRegister :=
      (decode_invalidRegister_iff hop).mpr ⟨o, ho, (Config.regOf_eq_none ..).mpr hout⟩
    exact ⟨_, fun r hr => ⟨kind_of_mem_reportsOf hr, mem_reportsOf hr⟩, step_of_decode_error hruns hdecode⟩
  · have hnone : m.format.regOffsets = [] := by
      revert hm
      cases m <;> decide
    obtain ⟨o, ho, -⟩ := (decode_invalidRegister_iff hop).mp herr
    simp [hnone] at ho

end Sys2Proof.Machine

/-! What the assembler makes: code that is whole encodings, labels at their boundaries, and no instruction from a
line with a name that is not known (R68 to R78). -/

namespace Sys2Proof.Machine

/-- A computation in two parts gives a result only if both parts do. -/
theorem exists_of_bind_ok {ε α β : Type} {x : Except ε α} {f : α → Except ε β} {b : β} (h : x >>= f = .ok b) :
    ∃ a, x = .ok a ∧ f a = .ok b := by
  cases x with
  | error e => cases h
  | ok a => exact ⟨a, rfl, h⟩

/-! The pass (R68, R70, R75). -/

/-- The code is the encodings of some instructions, back to back from address 8 on, and every label stands after some
of the first of them. -/
def Pass.AtBoundaries (c : Config) (p : Pass) : Prop :=
  ∃ instrs : List Instr, p.code = instrs.flatMap (encode c) ∧
    ∀ l ∈ p.labels, ∃ before,
      before <+: instrs ∧ l.2 = BitVec.ofNat 32 (8 + (before.flatMap (encode c)).length)

/-- A line that is taken leaves code and labels, declares a label at the next code byte, or adds one instruction's
encoding to the code (R68 to R70). -/
inductive LineEffect (c : Config) (p p' : Pass) : Prop where
  | keeps (hcode : p'.code = p.code) (hlabels : p'.labels = p.labels)
  | declares (name : String) (hcode : p'.code = p.code) (hlabels : p'.labels = (name, p.address c) :: p.labels)
  | emits (i : Instr) (hcode : p'.code = p.code ++ encode c i) (hlabels : p'.labels = p.labels)

section
variable {c : Config} {p p' : Pass}

theorem directive_effect (c : Config) (p : Pass) (name : String) : LineEffect c p (directive c p name) := by
  unfold directive
  split
  · exact .keeps rfl rfl
  · exact .declares name rfl rfl

theorem dataLine_effect {words : List String} (h : dataLine p words = .ok p') : LineEffect c p p' := by
  unfold dataLine at h
  split at h
  next =>
    split at h
    next =>
      split at h
      · cases h
        exact .keeps rfl rfl
      · cases h
    next => cases h
  next => cases h

theorem codeLine_effect {words : List String} (h : codeLine c p words = .ok p') : LineEffect c p p' := by
  cases words with
  | nil =>
    cases h
    exact .keeps rfl rfl
  | cons op args =>
    obtain ⟨i, -, h⟩ := exists_of_bind_ok h
    cases h
    exact .emits i rfl rfl

theorem asmLine_effect {line : List Char} (h : asmLine c p line = .ok p') : LineEffect c p p' := by
  unfold asmLine at h
  split at h
  next =>
    cases h
    exact .keeps rfl rfl
  next =>
    split at h
    next =>
      split at h
      · cases h
      · cases h
        exact directive_effect c p _
    next =>
      split at h
      · cases h
      · exact dataLine_effect h
      · exact codeLine_effect h
      · exact codeLine_effect h

/-- Every line keeps the labels at boundaries. -/
theorem Pass.AtBoundaries.step (hp : p.AtBoundaries c) (h : LineEffect c p p') : p'.AtBoundaries c := by
  obtain ⟨instrs, hcode, hlabels⟩ := hp
  cases h with
  | keeps hcode' hlabels' => exact ⟨instrs, hcode'.trans hcode, hlabels' ▸ hlabels⟩
  | declares name hcode' hlabels' =>
    refine ⟨instrs, hcode'.trans hcode, fun l hl => ?_⟩
    rcases List.mem_cons.mp (hlabels' ▸ hl) with rfl | hl
    · exact ⟨instrs, List.prefix_refl instrs, by rw [← hcode]; rfl⟩
    · exact hlabels l hl
  | emits i hcode' hlabels' =>
    refine ⟨instrs ++ [i], by simp [hcode', hcode], fun l hl => ?_⟩
    obtain ⟨before, hbefore, haddr⟩ := hlabels l (hlabels' ▸ hl)
    exact ⟨before, hbefore.trans (List.prefix_append instrs [i]), haddr⟩

theorem Pass.AtBoundaries.asmLines {lines : List (List Char)} (hp : p.AtBoundaries c)
    (h : asmLines c p lines = .ok p') : p'.AtBoundaries c := by
  induction lines generalizing p with
  | nil =>
    cases h
    exact hp
  | cons line rest ih =>
    obtain ⟨q, hline, h⟩ := exists_of_bind_ok h
    exact ih (hp.step (asmLine_effect hline)) h

theorem Pass.AtBoundaries.initial (c : Config) : Pass.AtBoundaries c ⟨.none, [], [], [], []⟩ :=
  ⟨[], rfl, fun _ hl => by cases hl⟩

/-- What a text that assembles gives: the code of a pass, and the address of its newest `start` label (R75, R76). -/
theorem assemble_ok {text : String} {im : Image} (h : assemble c text = .ok im) :
    ∃ p, asmLines c ⟨.none, [], [], [], []⟩ (splitOn (· == '\n') text.toList) = .ok p ∧
      p.labels.lookup "start" = some im.start ∧ im.code = p.code := by
  obtain ⟨p, hlines, h⟩ := exists_of_bind_ok h
  split at h
  next => cases h
  next a hstart =>
    cases h
    exact ⟨p, hlines, hstart, rfl⟩

end

/-- Settles O54: every line keeps the labels at boundaries, and the start address is a label's. -/
theorem assembledCodeIsInstructions : Obligations.AssembledCodeIsInstructions := by
  intro c text im h
  obtain ⟨p, hlines, hstart, himage⟩ := assemble_ok h
  obtain ⟨instrs, hcode, hlabels⟩ := (Pass.AtBoundaries.initial c).asmLines hlines
  have hmem : ("start", im.start) ∈ p.labels := by
    obtain ⟨l₁, l₂, hsplit, -⟩ := List.lookup_eq_some_iff.mp hstart
    simp [hsplit]
  obtain ⟨before, ⟨after, rfl⟩, haddr⟩ := hlabels _ hmem
  exact ⟨before, after, himage.trans hcode, haddr⟩

/-! Names that are not known (R71, R72, R78). -/

section
variable {p : Pass}

theorem resolve_unknown {tok : String} (hint : parseInt tok = none) (hreg : ∀ r, regName r ≠ tok)
    (hsymbol : p.symbols.lookup tok = none) (hlabel : p.labels.lookup tok = none) :
    resolve p tok = .error .unresolvedSymbol := by
  have hfind : (Reg.all.find? fun r => regName r == tok) = none := by simp [hreg]
  simp only [resolve, hint, hfind, hsymbol, hlabel]

/-- A list of operands fails to resolve if one of them does. -/
theorem mapM_resolve_error {tok : String} {args : List String} {e : AsmError} (htok : tok ∈ args)
    (h : resolve p tok = .error e) : ∃ e', args.mapM (resolve p) = .error e' := by
  induction args with
  | nil => cases htok
  | cons a rest ih =>
    rw [List.mapM_cons]
    cases ha : resolve p a with
    | error e' => exact ⟨e', rfl⟩
    | ok o =>
      have hrest : tok ∈ rest := by
        refine (List.mem_cons.mp htok).resolve_left ?_
        rintro rfl
        exact nomatch h.symm.trans ha
      obtain ⟨e', he'⟩ := ih hrest
      exact ⟨e', by rw [he']; rfl⟩

end

/-- Settles O55: such a token does not resolve, and then neither do the operands. -/
theorem undeclaredNamesAreRejected : Obligations.UndeclaredNamesAreRejected := by
  intro p op tok args htok hint hreg hsymbol hlabel
  obtain ⟨e, he⟩ := mapM_resolve_error htok (resolve_unknown hint hreg hsymbol hlabel)
  unfold instrLine
  split
  · exact ⟨_, rfl⟩
  · exact ⟨e, by rw [he]; rfl⟩

end Sys2Proof.Machine

/-! Moves (R80, R81), and what they share with the rest: an instruction that writes one register and goes on, the
formats RR and RI, and the register byte that names none (R51, R52, R61). -/

namespace Sys2Proof.Machine

open Sys2Proof.Claims

/-- What an instruction that writes one register and ZF, and then goes on, does and leaves alone; with `z` the ZF
that was, an instruction that keeps it. -/
theorem writesRegister_of_exec {i : Instr} {s : State} {d : Reg} {v : Word} {z : Bool} {m : Mnemonic}
    (h : exec i s = .next (((s.setReg d v).setZf z).advance m)) :
    WritesRegister i s d v z (BitVec.ofNat 32 m.length) := by
  refine ⟨_, h, by simp, fun r hr => ?_, rfl, rfl, fun _ => rfl, rfl, rfl, rfl⟩
  have hr : r ≠ d := by simpa using hr
  simp [hr]

theorem exec_mov (d r : Reg) (s : State) :
    exec (.mov d r) s = .next (((s.setReg d (s.reg r)).setZf s.zf).advance .mov) := rfl

theorem exec_movi (d : Reg) (imm : Word) (s : State) :
    exec (.movi d imm) s = .next (((s.setReg d imm).setZf s.zf).advance .movi) := rfl

/-- After an opcode byte, a register byte that names no register raises InvalidRegister (R61). -/
theorem decode_of_notRegister {c : Config} (hlegal : c.legal = true) {m : Mnemonic} {bs : List Byte} {o : Nat}
    (ho : o ∈ m.format.regOffsets) (h : NotRegister c (byteAt (c.opcByte m :: bs) o)) :
    decode c (c.opcByte m :: bs) = .error .invalidRegister :=
  (decode_invalidRegister_iff (Config.mnemonicOf_opcByte hlegal m)).mpr ⟨o, ho, (Config.regOf_eq_none ..).mpr h⟩

/-- After its opcode byte, an instruction decodes from bytes that hold its operands (R64). -/
theorem decode_of_operandsAt {c : Config} (hlegal : c.legal = true) {i : Instr} {bs : List Byte}
    (h : OperandsAt c (c.opcByte i.mnemonic :: bs) i) : decode c (c.opcByte i.mnemonic :: bs) = .ok i :=
  decode_of_spells hlegal (spells_iff.mpr ⟨rfl, h⟩)

/-- `MOV` is the one opcode of format RR (R51). -/
theorem formatRR_mov : FormatRR .mov 0x01 .mov := by
  refine ⟨rfl, rfl, fun c hlegal p3 rest => ⟨fun d s => ?_, fun b1 b2 hout => ?_⟩⟩
  · exact decode_of_operandsAt hlegal (i := .mov d s) ⟨rfl, rfl⟩
  · rcases hout with hdst | hsrc
    · exact decode_of_notRegister hlegal (o := 1) (by decide) hdst
    · exact decode_of_notRegister hlegal (o := 2) (by decide) hsrc

/-- An opcode whose instructions hold a register byte at 1 and the 32-bit field has format RI (R52). -/
theorem formatRI_of_operandsAt {m : Mnemonic} {op : Byte} {f : Reg → Word → Instr} (hformat : m.format = .ri)
    (hop : Config.default.opcByte m = op) (hmnemonic : ∀ r w, (f r w).mnemonic = m)
    (hoperands : ∀ c bs r w, c.regByte r = byteAt bs 1 → fieldAt bs = w → OperandsAt c bs (f r w)) :
    FormatRI m op f := by
  refine ⟨by rw [Mnemonic.length, hformat]; rfl, hop, fun c hlegal p2 p3 rest =>
    ⟨fun r i0 i1 i2 i3 => ?_, fun b1 hout => ?_⟩⟩
  · rw [← hmnemonic r (wordOfBytes i0 i1 i2 i3)]
    exact decode_of_operandsAt hlegal (hoperands _ _ _ _ rfl rfl)
  · exact decode_of_notRegister hlegal (o := 1) (by simp [hformat, Format.regOffsets]) hout

theorem formatRI_movi : FormatRI .movi 0x02 .movi :=
  formatRI_of_operandsAt rfl rfl (fun _ _ => rfl) fun _ _ _ _ hr hw => ⟨hr, hw⟩

/-- Settles O9: MOV writes the one register, with the source's value and the ZF that was. -/
theorem movCopiesRegister : Obligations.MovCopiesRegister :=
  ⟨formatRR_mov, fun d r s => writesRegister_of_exec (exec_mov d r s)⟩

/-- Settles O10: MOVI writes the one register, with the immediate and the ZF that was. -/
theorem moviMovesImmediate : Obligations.MoviMovesImmediate :=
  ⟨formatRI_movi, fun d imm s => writesRegister_of_exec (exec_movi d imm s)⟩

end Sys2Proof.Machine

/-! Loads and stores (R85, R86): the two instructions of format RI that access memory, each by one word access at
its own address. -/

namespace Sys2Proof.Machine

open Sys2Proof.Claims

theorem formatRI_load : FormatRI .load 0x03 .load :=
  formatRI_of_operandsAt rfl rfl (fun _ _ => rfl) fun _ _ _ _ hr hw => ⟨hr, hw⟩

theorem formatRI_store : FormatRI .store 0x04 .store :=
  formatRI_of_operandsAt rfl rfl (fun _ _ => rfl) fun _ _ _ _ hr hw => ⟨hr, hw⟩

/-- Settles O11: LOAD is a word read, whose reports stay, and then a register write of the word. -/
theorem loadReadsWord : Obligations.LoadReadsWord := by
  refine ⟨formatRI_load, fun d a s => ⟨fun _ => State.peek_of_not_valid, _, exec_load d a s, ?loaded, ?others,
    rfl, rfl, fun _ => rfl, rfl, rfl, rfl⟩⟩
  case loaded => simp [State.peekWord]
  case others =>
    intro q hq
    have hq : q ≠ d := by simpa using hq
    simp [hq]

/-- Settles O12: STORE is a word write; a byte out of range reads 0 after it as before it. -/
theorem storeWritesWord : Obligations.StoreWritesWord := by
  refine ⟨formatRI_store, fun r a s => ⟨_, exec_store r a s, ?inside, ?outOfRange, ?outside, ?registers,
    s.writeWord_zf a _, congrArg (· + 8) (s.writeWord_pc a _), s.writeWord_fatal a _, s.writeWord_cfg a _,
    s.writeWord_errlog a _⟩⟩
  case inside => exact s.writeWord_peek_inside a (s.reg r)
  case outOfRange => exact fun b hb => State.peek_of_not_valid (by simpa using hb)
  case outside => exact s.writeWord_peek_outside a (s.reg r)
  case registers => exact fun q _ => by simp

end Sys2Proof.Machine

/-! Arithmetic (R91 to R96): the format ALU3, the write that carries ZF, and the results as exact integers modulo
2^32. -/

namespace Sys2Proof.Machine

open Sys2Proof.Claims

/-- An opcode whose instructions hold three register bytes at 1, 2 and 3 has format ALU3 (R53). -/
theorem formatALU3_of_operandsAt {m : Mnemonic} {op : Byte} {f : Reg → Reg → Reg → Instr} (hformat : m.format = .alu3)
    (hop : Config.default.opcByte m = op) (hmnemonic : ∀ s1 s2 d, (f s1 s2 d).mnemonic = m)
    (hoperands : ∀ c bs s1 s2 d, c.regByte s1 = byteAt bs 1 → c.regByte s2 = byteAt bs 2 → c.regByte d = byteAt bs 3 →
      OperandsAt c bs (f s1 s2 d)) :
    FormatALU3 m op f := by
  have hoffsets : m.format.regOffsets = [1, 2, 3] := by rw [hformat]; rfl
  refine ⟨by rw [Mnemonic.length, hformat]; rfl, hop, fun c hlegal rest => ⟨fun s1 s2 d => ?_, fun b1 b2 b3 hout => ?_⟩⟩
  · rw [← hmnemonic s1 s2 d]
    exact decode_of_operandsAt hlegal (hoperands _ _ _ _ _ rfl rfl rfl)
  · rcases hout with hsrc1 | hsrc2 | hdst
    · exact decode_of_notRegister hlegal (o := 1) (by simp [hoffsets]) hsrc1
    · exact decode_of_notRegister hlegal (o := 2) (by simp [hoffsets]) hsrc2
    · exact decode_of_notRegister hlegal (o := 3) (by simp [hoffsets]) hdst

theorem formatALU3_add : FormatALU3 .add 0x05 .add :=
  formatALU3_of_operandsAt rfl rfl (fun _ _ _ => rfl) fun _ _ _ _ _ h1 h2 hd => ⟨h1, h2, hd⟩

theorem formatALU3_sub : FormatALU3 .sub 0x06 .sub :=
  formatALU3_of_operandsAt rfl rfl (fun _ _ _ => rfl) fun _ _ _ _ _ h1 h2 hd => ⟨h1, h2, hd⟩

theorem formatALU3_mul : FormatALU3 .mul 0x07 .mul :=
  formatALU3_of_operandsAt rfl rfl (fun _ _ _ => rfl) fun _ _ _ _ _ h1 h2 hd => ⟨h1, h2, hd⟩

theorem formatALU3_div : FormatALU3 .div 0x08 .div :=
  formatALU3_of_operandsAt rfl rfl (fun _ _ _ => rfl) fun _ _ _ _ _ h1 h2 hd => ⟨h1, h2, hd⟩

/-- An arithmetic result is one register write, with ZF from the word written (R96). -/
theorem State.writeArith_eq (s : State) (d : Reg) (r : Word) :
    s.writeArith d r = (s.setReg d r).setZf (decide (r = 0)) := rfl

/-- What an instruction that writes an arithmetic result and goes on does and leaves alone. -/
theorem writesRegister_of_writeArith {i : Instr} {s : State} {d : Reg} {r : Word} {m : Mnemonic}
    (h : exec i s = .next ((s.writeArith d r).advance m)) :
    WritesRegister i s d r (decide (r = 0)) (BitVec.ofNat 32 m.length) :=
  writesRegister_of_exec (by rw [h, State.writeArith_eq])

/-- What an instruction that only raises does and leaves alone (R132). -/
theorem raisesOnly_of_exec {i : Instr} {s : State} {code : FatalCode} (h : exec i s = .next (s.raise code)) :
    RaisesOnly i s code :=
  ⟨_, h, rfl, fun r _ => s.raise_reg code r, rfl, rfl, fun _ => rfl, rfl, rfl⟩

theorem exec_add (a b d : Reg) (s : State) :
    exec (.add a b d) s = .next ((s.writeArith d (addWord (s.reg a) (s.reg b))).advance .add) := rfl

theorem exec_sub (a b d : Reg) (s : State) :
    exec (.sub a b d) s = .next ((s.writeArith d (subWord (s.reg a) (s.reg b))).advance .sub) := rfl

theorem exec_mul (a b d : Reg) (s : State) :
    exec (.mul a b d) s = .next ((s.writeArith d (mulWord (s.reg a) (s.reg b))).advance .mul) := rfl

/-! The results of the arithmetic unit, under the unsigned and under the signed reading (R91 to R93, R95). -/

theorem addWord_eq_ofNat (a b : Word) : addWord a b = BitVec.ofNat 32 (a.toNat + b.toNat) := by
  simp [addWord, BitVec.ofNat_add]

theorem addWord_eq_ofInt (a b : Word) : addWord a b = BitVec.ofInt 32 (s32 a + s32 b) := by
  simp [addWord, BitVec.ofInt_add]

theorem subWord_eq_ofInt (a b : Word) : subWord a b = BitVec.ofInt 32 (s32 a - s32 b) := by
  simp [subWord, Int.sub_eq_add_neg, BitVec.ofInt_add, BitVec.ofInt_neg, BitVec.sub_eq_add_neg]

theorem subWord_eq_ofInt_toNat (a b : Word) : subWord a b = BitVec.ofInt 32 ((a.toNat : Int) - (b.toNat : Int)) := by
  simp [subWord, Int.sub_eq_add_neg, BitVec.ofInt_add, BitVec.ofInt_neg, BitVec.sub_eq_add_neg]

/-- The difference is zero exactly for equal operands: subtraction modulo 2^32 has no other zero (R92). -/
theorem subWord_eq_zero_iff {a b : Word} : subWord a b = 0 ↔ a = b := sub_eq_zero

theorem mulWord_eq_ofNat (a b : Word) : mulWord a b = BitVec.ofNat 32 (a.toNat * b.toNat) := by
  simp [mulWord, BitVec.ofNat_mul]

theorem mulWord_eq_ofInt (a b : Word) : mulWord a b = BitVec.ofInt 32 (s32 a * s32 b) := by
  simp [mulWord, BitVec.ofInt_mul]

/-- The default quotient is the word operation of signed division (R94). -/
theorem signedQuotient_eq_sdiv (a b : Word) : signedQuotient a b = a.sdiv b :=
  BitVec.eq_of_toInt_eq (by rw [signedQuotient, BitVec.toInt_ofInt, BitVec.toInt_sdiv])

theorem divFn_signedTruncating {c : Config} (hc : c.divFn = .signedTruncating) (a b : Word) :
    divFn c a b = signedQuotient a b := by
  simp only [divFn, hc]

/-- Settles O14: ADD writes the sum of the words, which is the sum of either reading. -/
theorem addWritesWrappedSum : Obligations.AddWritesWrappedSum := by
  refine ⟨formatALU3_add, fun a b d s r hr => ?_⟩
  obtain rfl : r = addWord (s.reg a) (s.reg b) := by rw [hr, addWord_eq_ofNat]
  exact ⟨writesRegister_of_writeArith (exec_add a b d s), addWord_eq_ofInt _ _⟩

/-- Settles O15: SUB writes the difference of the words, which is that of either reading. -/
theorem subWritesWrappedDifference : Obligations.SubWritesWrappedDifference := by
  refine ⟨formatALU3_sub, fun a b d s r hr => ?_⟩
  obtain rfl : r = subWord (s.reg a) (s.reg b) := by rw [hr, subWord_eq_ofInt_toNat]
  exact ⟨writesRegister_of_writeArith (exec_sub a b d s), subWord_eq_ofInt _ _, subWord_eq_zero_iff⟩

/-- Settles O16: MUL writes the product of the words, which is that of either reading. -/
theorem mulWritesLowProduct : Obligations.MulWritesLowProduct := by
  refine ⟨formatALU3_mul, fun a b d s r hr => ?_⟩
  obtain rfl : r = mulWord (s.reg a) (s.reg b) := by rw [hr, mulWord_eq_ofNat]
  exact ⟨writesRegister_of_writeArith (exec_mul a b d s), mulWord_eq_ofInt _ _⟩

/-- Settles O17: the two sides of DIV's test of the divisor. -/
theorem divDividesOrRaises : Obligations.DivDividesOrRaises :=
  ⟨formatALU3_div, fun a _ d _ => ⟨fun hzero => raisesOnly_of_exec (exec_div_zero a d hzero),
    fun hne => writesRegister_of_writeArith (exec_div a d hne)⟩⟩

/-- Settles O18: the truncated quotient is a word's signed reading but for the one overflow, which wraps. -/
theorem defaultQuotientTruncates : Obligations.DefaultQuotientTruncates := by
  intro c a b hc _
  rw [divFn_signedTruncating hc]
  constructor
  · intro hfits
    rw [signedQuotient_eq_sdiv]
    exact BitVec.toInt_sdiv_of_ne_or_ne a b (not_and_or.mp hfits)
  · rintro ⟨rfl, rfl⟩
    decide

end Sys2Proof.Machine

/-! Logic (R100 to R104): the format R1, the write that keeps ZF, and the results bit by bit. -/

namespace Sys2Proof.Machine

open Sys2Proof.Claims

theorem formatALU3_and : FormatALU3 .and 0x09 .and :=
  formatALU3_of_operandsAt rfl rfl (fun _ _ _ => rfl) fun _ _ _ _ _ h1 h2 hd => ⟨h1, h2, hd⟩

theorem formatALU3_or : FormatALU3 .or 0x0A .or :=
  formatALU3_of_operandsAt rfl rfl (fun _ _ _ => rfl) fun _ _ _ _ _ h1 h2 hd => ⟨h1, h2, hd⟩

theorem formatALU3_xor : FormatALU3 .xor 0x0B .xor :=
  formatALU3_of_operandsAt rfl rfl (fun _ _ _ => rfl) fun _ _ _ _ _ h1 h2 hd => ⟨h1, h2, hd⟩

/-- An opcode whose instructions hold a register byte at 1 and nothing else has format R1 (R54). -/
theorem formatR1_of_operandsAt {m : Mnemonic} {op : Byte} {f : Reg → Instr} (hformat : m.format = .r1)
    (hop : Config.default.opcByte m = op) (hmnemonic : ∀ r, (f r).mnemonic = m)
    (hoperands : ∀ c bs r, c.regByte r = byteAt bs 1 → OperandsAt c bs (f r)) :
    FormatR1 m op f := by
  refine ⟨by rw [Mnemonic.length, hformat]; rfl, hop, fun c hlegal p2 p3 rest => ⟨fun r => ?_, fun b1 hout => ?_⟩⟩
  · rw [← hmnemonic r]
    exact decode_of_operandsAt hlegal (hoperands _ _ _ rfl)
  · exact decode_of_notRegister hlegal (o := 1) (by simp [hformat, Format.regOffsets]) hout

theorem formatR1_not : FormatR1 .not 0x0C .not :=
  formatR1_of_operandsAt rfl rfl (fun _ => rfl) fun _ _ _ hr => hr

/-- A logic result is one register write, with the ZF that was (R104). -/
theorem State.writeLogic_eq (s : State) (d : Reg) (r : Word) : s.writeLogic d r = (s.setReg d r).setZf s.zf := rfl

/-- What an instruction that writes a logic result and goes on does and leaves alone. -/
theorem writesRegister_of_writeLogic {i : Instr} {s : State} {d : Reg} {r : Word} {m : Mnemonic}
    (h : exec i s = .next ((s.writeLogic d r).advance m)) :
    WritesRegister i s d r s.zf (BitVec.ofNat 32 m.length) :=
  writesRegister_of_exec (by rw [h, State.writeLogic_eq])

/-- The write of a word that keeps ZF is the write of its bits. -/
theorem writesBits_of_writesRegister {i : Instr} {s : State} {d : Reg} {v : Word} {bit : Nat → Bool}
    (h : WritesRegister i s d v s.zf 4) (hbit : ∀ k < 32, v.getLsbD k = bit k) : WritesBits i s d bit := by
  obtain ⟨t, hexec, rfl, hframe⟩ := h
  exact ⟨t, hexec, hbit, hframe⟩

theorem exec_and (a b d : Reg) (s : State) :
    exec (.and a b d) s = .next ((s.writeLogic d (s.reg a &&& s.reg b)).advance .and) := rfl

theorem exec_or (a b d : Reg) (s : State) :
    exec (.or a b d) s = .next ((s.writeLogic d (s.reg a ||| s.reg b)).advance .or) := rfl

theorem exec_xor (a b d : Reg) (s : State) :
    exec (.xor a b d) s = .next ((s.writeLogic d (s.reg a ^^^ s.reg b)).advance .xor) := rfl

theorem exec_not (r : Reg) (s : State) :
    exec (.not r) s = .next ((s.writeLogic r (~~~ s.reg r)).advance .not) := rfl

/-- Settles O19: AND writes the and of the words and keeps ZF. -/
theorem andIsBitwise : Obligations.AndIsBitwise :=
  ⟨formatALU3_and, fun a b d s => writesBits_of_writesRegister (writesRegister_of_writeLogic (exec_and a b d s))
    fun _ _ => BitVec.getLsbD_and⟩

/-- Settles O20: OR writes the or of the words and keeps ZF. -/
theorem orIsBitwise : Obligations.OrIsBitwise :=
  ⟨formatALU3_or, fun a b d s => writesBits_of_writesRegister (writesRegister_of_writeLogic (exec_or a b d s))
    fun _ _ => BitVec.getLsbD_or⟩

/-- Settles O21: XOR writes the exclusive or of the words and keeps ZF. -/
theorem xorIsBitwise : Obligations.XorIsBitwise :=
  ⟨formatALU3_xor, fun a b d s => writesBits_of_writesRegister (writesRegister_of_writeLogic (exec_xor a b d s))
    fun _ _ => BitVec.getLsbD_xor⟩

/-- Two NOTs of one register restore every register: complement is its own inverse, and no other is written (R103). -/
theorem exec_not_exec_not (r : Reg) (s : State) :
    ∃ t u, exec (.not r) s = .next t ∧ exec (.not r) t = .next u ∧ ∀ q, u.reg q = s.reg q := by
  obtain ⟨t, hst, htr, ht, -⟩ := writesRegister_of_writeLogic (exec_not r s)
  obtain ⟨u, htu, hur, hu, -⟩ := writesRegister_of_writeLogic (exec_not r t)
  refine ⟨t, u, hst, htu, fun q => ?_⟩
  by_cases hq : q = r
  · rw [hq, hur, htr, BitVec.not_not]
  · have hq : q ∉ [r] := by simpa using hq
    rw [hu q hq, ht q hq]

/-- Settles O22: NOT writes the complement of the word and keeps ZF; the subtraction from all ones never borrows. -/
theorem notComplementsInPlace : Obligations.NotComplementsInPlace := by
  refine ⟨formatR1_not, fun r s => ?_⟩
  have hwrites := writesRegister_of_writeLogic (exec_not r s)
  have hsub : 0xFFFFFFFF - s.reg r = ~~~ s.reg r := BitVec.allOnes_sub_eq_not _
  refine ⟨writesBits_of_writesRegister hwrites fun k hk => ?_, hsub ▸ hwrites, exec_not_exec_not r s⟩
  rw [BitVec.getLsbD_not, decide_eq_true hk, Bool.true_and]

/-- Settles O23: the four are not among the writers of ZF, so `Controls` says they keep it, and not among the opcodes
that read or write it, so a change of ZF is `Unseen` by them. -/
theorem logicIgnoresZeroFlag : Obligations.LogicIgnoresZeroFlag := by
  intro i s z hi
  have hnone : ∀ m ∈ [Mnemonic.and, .or, .xor, .not], m ∉ zfOpcodes ∧ m ∉ zfWriters := by decide
  obtain ⟨hopcode, hwriter⟩ := hnone _ hi
  obtain ⟨t, hexec, hcontrols⟩ := exec_controls i s
  refine ⟨t, hexec, hcontrols.zf hwriter, ?_⟩
  rw [(Unseen.setZf z).exec i s (absurd · hopcode), hexec, onNext_next]

end Sys2Proof.Machine

/-! The stack (R107 to R112): PUSH and POP, and the laws of many pushes and pops. -/

namespace Sys2Proof.Machine

open Sys2Proof.Claims

/-! The boundary tests of the stack primitives (R8, R107, R108). -/

theorem pushFits_iff {s : State} : PushFits s ↔ below (s.reg .esp - 4) s.cfg.stackStart = false := by
  simp [PushFits, below]

theorem popFits_iff {s : State} : PopFits s ↔ below (s.reg .esp) s.cfg.stackEnd = true := by
  simp [PopFits, below]

theorem below_of_not_pushFits {s : State} (h : ¬ PushFits s) : below (s.reg .esp - 4) s.cfg.stackStart = true := by
  simpa [pushFits_iff] using h

theorem below_of_not_popFits {s : State} (h : ¬ PopFits s) : below (s.reg .esp) s.cfg.stackEnd = false := by
  simpa [popFits_iff] using h

/-! The state a push that fits leaves (R107). -/

/-- The state after a push that fits: ESP decremented and the word written there. -/
def State.pushed (s : State) (v : Word) : State :=
  (s.setReg .esp (s.reg .esp - 4)).writeWord (s.reg .esp - 4) v

theorem push_of_pushFits {s : State} (v : Word) (h : PushFits s) : push s v = .ok (s.pushed v) :=
  push_ok v (pushFits_iff.mp h)

section
variable (s : State) (v : Word)

@[simp] theorem State.pushed_pc : (s.pushed v).pc = s.pc := by simp [State.pushed]

@[simp] theorem State.pushed_zf : (s.pushed v).zf = s.zf := by simp [State.pushed]

@[simp] theorem State.pushed_fatal : (s.pushed v).fatal = s.fatal := by simp [State.pushed]

@[simp] theorem State.pushed_cfg : (s.pushed v).cfg = s.cfg := by simp [State.pushed]

@[simp] theorem State.pushed_errlog :
    (s.pushed v).errlog = s.errlog ++ reportsOf s.cfg .write (wordAddrs (s.reg .esp - 4)) := by simp [State.pushed]

@[simp] theorem State.pushed_esp : (s.pushed v).reg .esp = s.reg .esp - 4 := by simp [State.pushed]

theorem State.pushed_sameRegs : SameRegs s (s.pushed v) [.esp] := by
  intro r hr
  have hr : r ≠ .esp := by simpa using hr
  simp [State.pushed, hr]

theorem State.pushed_peek_inside {k : Nat} (hk : k < 4)
    (h : valid s.cfg (s.reg .esp - 4 + BitVec.ofNat 32 k) = true) :
    (s.pushed v).peek (s.reg .esp - 4 + BitVec.ofNat 32 k) = wordByte v k :=
  State.writeWord_peek_inside _ _ v k hk h

theorem State.pushed_sameMemOutside : SameMemOutside s (s.pushed v) (s.reg .esp - 4) :=
  fun b hb => State.writeWord_peek_outside _ _ v b hb

end

/-! What an instruction that pushes does and leaves alone, said once. -/

/-- An instruction that pushes with room and sets pc. -/
theorem pushesAndGoes_of_exec {i : Instr} {s : State} {v target : Word}
    (h : exec i s = .next ((s.pushed v).setPc target)) : PushesAndGoes i s v target := by
  refine ⟨_, h, s.pushed_esp v, fun r hr => ?_, fun k => s.pushed_peek_inside v, s.pushed_sameMemOutside v,
    s.pushed_zf v, rfl, s.pushed_fatal v, s.pushed_cfg v, s.pushed_errlog v⟩
  rw [State.setPc_reg]
  exact s.pushed_sameRegs v r hr

/-- An instruction whose push overflows. -/
theorem raisesOverflow_of_exec {i : Instr} {s : State}
    (h : exec i s = .next ((s.setReg .esp (s.reg .esp - 4)).raise .stackOverflow)) : RaisesOverflow i s := by
  refine ⟨_, h, rfl, rfl, fun r hr => ?_, rfl, rfl, fun _ => rfl, rfl, rfl⟩
  have hr : r ≠ .esp := by simpa using hr
  simp [hr]

theorem exec_push_of_pushFits {s : State} (r : Reg) (h : PushFits s) :
    exec (.push r) s = .next ((s.pushed (s.reg r)).setPc (s.pc + 4)) := by
  have hadvance : (s.pushed (s.reg r)).advance .push = (s.pushed (s.reg r)).setPc (s.pc + 4) :=
    congrArg (fun p => (s.pushed (s.reg r)).setPc (p + 4)) (s.pushed_pc (s.reg r))
  rw [← hadvance]
  exact exec_push r (pushFits_iff.mp h)

/-! PUSH and POP (R109, R110). -/

theorem formatR1_push : FormatR1 .push 0x0D .push :=
  formatR1_of_operandsAt rfl rfl (fun _ => rfl) fun _ _ _ hr => hr

theorem formatR1_pop : FormatR1 .pop 0x0E .pop :=
  formatR1_of_operandsAt rfl rfl (fun _ => rfl) fun _ _ _ hr => hr

/-- Settles O25: the two sides of the push's test; the value is read in the state before ESP moves. -/
theorem pushStoresRegister : Obligations.PushStoresRegister :=
  ⟨formatR1_push, fun r _ => ⟨fun hfits => pushesAndGoes_of_exec (exec_push_of_pushFits r hfits),
    fun hfull => raisesOverflow_of_exec (exec_push_overflow r (below_of_not_pushFits hfull))⟩⟩

/-- Settles O26: the two sides of the pop's test; the register is written last, so `POP ESP` keeps the popped word. -/
theorem popLoadsRegister : Obligations.PopLoadsRegister := by
  refine ⟨formatR1_pop, fun r s => ⟨fun hfits => ?fits, fun hempty => ?empty⟩⟩
  case empty => exact raisesOnly_of_exec (exec_pop_underflow r (below_of_not_popFits hempty))
  case fits =>
    refine ⟨_, exec_pop r (popFits_iff.mp hfits), by simp, fun hr => ?_, fun q hq => ?_, rfl, rfl, fun _ => rfl,
      rfl, rfl, rfl⟩
    · simp [hr.symm]
    · obtain ⟨hqr, hqesp⟩ : q ≠ r ∧ q ≠ .esp := by simpa using hq
      simp [hqr, hqesp]

/-! The slot below ESP (R8, R31, R107). -/

/-- A word that is not negative reads the same signed and unsigned. -/
theorem s32_eq_toNat {w : Word} (h : 0 ≤ s32 w) : s32 w = w.toNat := by
  have hs : s32 w = if 2 * w.toNat < 2 ^ 32 then (w.toNat : Int) else (w.toNat : Int) - ↑(2 ^ 32 : Nat) :=
    BitVec.toInt_eq_toNat_cond w
  have hlt := w.isLt
  split at hs <;> omega

/-- A decrement from a word that is not negative does not wrap under the signed reading. -/
theorem s32_sub_four {w : Word} (h : 0 ≤ s32 w) : s32 (w - 4) = s32 w - 4 := by
  have hlt : s32 w < 2 ^ 31 := BitVec.toInt_lt
  have hsub : s32 (w - 4) = (s32 w - 4).bmod (2 ^ 32) := BitVec.toInt_sub
  rw [hsub, Int.bmod_eq_of_le (by omega) (by omega)]

/-- A decrement by 4 from a word of at least 4 does not wrap under the unsigned reading. -/
theorem toNat_sub_four {w : Word} (h : 4 ≤ w.toNat) : (w - 4).toNat + 4 = w.toNat := by bv_omega

/-- The four bytes of a word that does not wrap are the ones from its address on (R35). -/
theorem mem_wordAddrs_iff {a b : Word} (ha : a.toNat + 4 ≤ 2 ^ 32) :
    b ∈ wordAddrs a ↔ a.toNat ≤ b.toNat ∧ b.toNat < a.toNat + 4 := by
  simp only [wordAddrs, List.mem_cons, List.not_mem_nil, or_false]
  bv_omega

/-- A word that ends inside memory is in range (R31). -/
theorem wordValid_of_toNat {c : Config} (hc : c.memSize < 2 ^ 31) {a : Word} (ha : a.toNat + 4 ≤ c.memSize) :
    WordValid c a := by
  simpa using wordValid_ofNat hc ha

/-! Many pushes and pops (R112). -/

theorem pushMany_cons_of_ok {s t : State} {v : Word} (vs : List Word) (h : push s v = .ok t) :
    pushMany (v :: vs) s = pushMany vs t := by
  rw [pushMany, h]
  rfl

theorem pushMany_cons_of_error {s f : State} {v : Word} (vs : List Word) (h : push s v = .error f) :
    pushMany (v :: vs) s = .error f := by
  rw [pushMany, h]
  rfl

/-- One pop after `n`: its word comes last. -/
theorem popMany_succ_of_ok {n : Nat} {s t u : State} {vs : List Word} {v : Word} (hmany : popMany n s = .ok (vs, t))
    (hpop : pop t = .ok (v, u)) : popMany (n + 1) s = .ok (vs ++ [v], u) := by
  induction n generalizing s vs with
  | zero =>
    obtain ⟨rfl, rfl⟩ : [] = vs ∧ s = t := by simpa [popMany] using hmany
    rw [popMany, hpop]
    rfl
  | succ n ih =>
    obtain ⟨⟨w, s1⟩, hfirst, hrest⟩ := exists_of_bind_ok hmany
    obtain ⟨⟨ws, s2⟩, hmany', hlast⟩ := exists_of_bind_ok hrest
    obtain ⟨rfl, rfl⟩ : w :: ws = vs ∧ s2 = t := by simpa using hlast
    rw [popMany, hfirst]
    change (popMany (n + 1) s1 >>= _) = _
    rw [ih hmany']
    rfl

/-- A pop that fits from a word in range makes no report. -/
theorem pop_of_wordValid {s : State} (hfits : PopFits s) (hword : WordValid s.cfg (s.reg .esp)) :
    pop s = .ok (s.peekWord (s.reg .esp), s.setReg .esp (s.reg .esp + 4)) := by
  rw [pop_ok (popFits_iff.mp hfits), reportsOf_eq_nil hword, State.addReports_nil]

/-- After a push, a state that kept the registers and the pushed word pops that word; ESP is then as before the push. -/
theorem pop_of_sameRegs_pushed {s u : State} {v : Word} (hword : WordValid s.cfg (s.reg .esp - 4))
    (hfits : s32 (s.reg .esp - 4) < (s.cfg.stackEnd : Int)) (hcfg : u.cfg = s.cfg) (hregs : SameRegs (s.pushed v) u [])
    (hslot : ∀ b ∈ wordAddrs (s.reg .esp - 4), u.peek b = (s.pushed v).peek b) :
    pop u = .ok (v, u.setReg .esp (s.reg .esp)) := by
  have hesp : u.reg .esp = s.reg .esp - 4 := by simpa using hregs .esp (by simp)
  have hkept : u.peekWord (s.reg .esp - 4) = v := State.peekWord_of_bytes fun k hk => by
    have hmem := add_ofNat_mem_wordAddrs (s.reg .esp - 4) hk
    rw [hslot _ hmem, s.pushed_peek_inside v hk (hword _ hmem)]
  have hfitsU : PopFits u := by
    unfold PopFits
    rwa [hesp, hcfg]
  rw [pop_of_wordValid hfitsU (by rwa [hesp, hcfg]), hesp, hkept, BitVec.sub_add_cancel]

/-- Putting ESP back restores the registers there were before a push. -/
theorem sameRegs_of_pushed {s u : State} {v : Word} (hregs : SameRegs (s.pushed v) u []) :
    SameRegs s (u.setReg .esp (s.reg .esp)) [] := by
  intro r hr
  by_cases hesp : r = .esp
  · simp [hesp]
  · have hne : r ∉ [Reg.esp] := by simpa using hesp
    rw [State.setReg_reg, if_neg hesp, hregs r hr, s.pushed_sameRegs v r hne]

/-- Settles O27, by induction on the words: the inner pushes and pops restore the state after the first push but for
the slots below its word, so the last pop finds that word and puts ESP back. -/
theorem stackIsBalancedAndLifo : Obligations.StackIsBalancedAndLifo := by
  intro s vs
  induction vs generalizing s with
  | nil => exact fun _ _ _ => ⟨s, s, rfl, by simp, rfl, fun _ _ => rfl, rfl, rfl, ⟨rfl, rfl, rfl⟩, fun _ _ => rfl⟩
  | cons v vs ih =>
    intro hlegal hroom hend
    rw [List.length_cons] at hroom ⊢
    obtain ⟨-, hc, -⟩ := s.cfg.legal_iff.mp hlegal
    have hsize : s.cfg.memSize = s.cfg.stackEnd := rfl
    have hint : s32 (s.reg .esp - 4) = s32 (s.reg .esp) - 4 := s32_sub_four (by omega)
    have hnat : s32 (s.reg .esp) = (s.reg .esp).toNat := s32_eq_toNat (by omega)
    have hslot : (s.reg .esp - 4).toNat + 4 = (s.reg .esp).toNat := toNat_sub_four (by omega)
    have hword : WordValid s.cfg (s.reg .esp - 4) := wordValid_of_toNat hc (by omega)
    have hfits : PushFits s := by unfold PushFits; omega
    obtain ⟨t, u, hpushes, hesp, hpops, hregs, hpc, hzf, ⟨hfatal, herrlog, hcfg⟩, hframe⟩ := ih (s.pushed v)
      (by rwa [State.pushed_cfg]) (by rw [State.pushed_esp, State.pushed_cfg]; omega)
      (by rw [State.pushed_esp, State.pushed_cfg]; omega)
    simp only [State.pushed_esp, State.pushed_pc, State.pushed_zf, State.pushed_fatal, State.pushed_cfg,
      State.pushed_errlog, reportsOf_eq_nil hword, List.append_nil] at hesp hpc hzf hfatal herrlog hcfg hframe
    have hpop : pop u = .ok (v, u.setReg .esp (s.reg .esp)) :=
      pop_of_sameRegs_pushed hword (by omega) hcfg hregs fun b hb =>
        hframe b (.inr ((mem_wordAddrs_iff (by omega)).mp hb).1)
    refine ⟨t, u.setReg .esp (s.reg .esp), (pushMany_cons_of_ok vs (push_of_pushFits v hfits)).trans hpushes, ?esp,
      ?pops, sameRegs_of_pushed hregs, hpc, hzf, ⟨hfatal, herrlog, hcfg⟩, fun b hb => ?frame⟩
    case esp =>
      rw [hesp, Nat.mul_succ, BitVec.ofNat_add, BitVec.sub_sub, BitVec.add_comm]
      rfl
    case pops =>
      rw [List.reverse_cons]
      exact popMany_succ_of_ok hpops hpop
    case frame =>
      rw [State.setReg_peek, hframe b (by omega)]
      exact s.pushed_sameMemOutside v b (by rw [mem_wordAddrs_iff (by omega)]; omega)

/-- Settles O28, by induction on the words: the first push either overflows, writing nothing, or fits, and then it
writes at or above STACK_START and leaves one slot less. -/
theorem pushingTooMuchOverflows : Obligations.PushingTooMuchOverflows := by
  intro s vs
  induction vs generalizing s with
  | nil =>
    intro _ hstart hend
    rw [List.length_nil] at hend
    omega
  | cons v vs ih =>
    intro hlegal hstart hend
    rw [List.length_cons] at hend
    have hint : s32 (s.reg .esp - 4) = s32 (s.reg .esp) - 4 := s32_sub_four (by omega)
    by_cases hfits : PushFits s
    · have hnat : s32 (s.reg .esp - 4) = (s.reg .esp - 4).toNat := s32_eq_toNat (le_trans (by omega) hfits)
      have hhigh : s32 (s.reg .esp - 4) < 2 ^ 31 := BitVec.toInt_lt
      obtain ⟨f, hpushes, hfatal, hframe⟩ := ih (s.pushed v) (by simpa using hlegal)
        (by rwa [State.pushed_esp, State.pushed_cfg]) (by rw [State.pushed_esp, State.pushed_cfg]; omega)
      refine ⟨f, (pushMany_cons_of_ok vs (push_of_pushFits v hfits)).trans hpushes, hfatal, fun b hb => ?_⟩
      unfold PushFits at hfits
      rw [hframe b (by simpa using hb)]
      exact s.pushed_sameMemOutside v b (by rw [mem_wordAddrs_iff (by omega)]; omega)
    · exact ⟨_, pushMany_cons_of_error vs (push_overflow v (below_of_not_pushFits hfits)), rfl, fun _ _ => rfl⟩

end Sys2Proof.Machine

/-! Control transfer (R115 to R123): the formats J and N, the jump that is taken and the one that is not, and RET. -/

namespace Sys2Proof.Machine

open Sys2Proof.Claims

/-! The formats (R55, R56). -/

/-- An opcode whose instructions hold the 32-bit field and nothing else has format J (R55). -/
theorem formatJ_of_operandsAt {m : Mnemonic} {op : Byte} {f : Word → Instr} (hformat : m.format = .j)
    (hop : Config.default.opcByte m = op) (hmnemonic : ∀ w, (f w).mnemonic = m)
    (hoperands : ∀ c bs w, fieldAt bs = w → OperandsAt c bs (f w)) : FormatJ m op f := by
  refine ⟨by rw [Mnemonic.length, hformat]; rfl, hop, fun c hlegal p1 p2 p3 i0 i1 i2 i3 rest => ?_⟩
  rw [← hmnemonic (wordOfBytes i0 i1 i2 i3)]
  exact decode_of_operandsAt hlegal (hoperands _ _ _ rfl)

theorem formatJ_jmp : FormatJ .jmp 0x0F .jmp := formatJ_of_operandsAt rfl rfl (fun _ => rfl) fun _ _ _ hw => hw

theorem formatJ_jz : FormatJ .jz 0x10 .jz := formatJ_of_operandsAt rfl rfl (fun _ => rfl) fun _ _ _ hw => hw

theorem formatJ_jnz : FormatJ .jnz 0x11 .jnz := formatJ_of_operandsAt rfl rfl (fun _ => rfl) fun _ _ _ hw => hw

theorem formatJ_call : FormatJ .call 0x12 .call := formatJ_of_operandsAt rfl rfl (fun _ => rfl) fun _ _ _ hw => hw

/-- `RET` is the one opcode of format N (R56). -/
theorem formatN_ret : FormatN .ret 0x13 .ret :=
  ⟨rfl, rfl, fun _ hlegal _ _ _ _ => decode_of_operandsAt hlegal (i := .ret) trivial⟩

/-! The jumps, each as its one execution: push-and-jump, or an advance by 8 (R115 to R119). -/

theorem pushAndJump_of_pushFits {s : State} (target : Word) (h : PushFits s) :
    pushAndJump s target = (s.pushed s.pc).setPc target :=
  pushAndJump_ok target (pushFits_iff.mp h)

theorem exec_jmp (target : Word) (s : State) : exec (.jmp target) s = .next (pushAndJump s target) := rfl

theorem exec_call (target : Word) (s : State) : exec (.call target) s = .next (pushAndJump s target) := rfl

section
variable {s : State} (target : Word)

theorem exec_jz_taken (hzf : s.zf = true) : exec (.jz target) s = .next (pushAndJump s target) := by
  rw [exec_jz, if_pos hzf]

theorem exec_jz_untaken (hzf : s.zf = false) : exec (.jz target) s = .next (s.setPc (s.pc + 8)) := by
  rw [exec_jz, if_neg (by simp [hzf])]
  rfl

theorem exec_jnz_taken (hzf : s.zf = false) : exec (.jnz target) s = .next (pushAndJump s target) := by
  rw [exec_jnz, if_neg (by simp [hzf])]

theorem exec_jnz_untaken (hzf : s.zf = true) : exec (.jnz target) s = .next (s.setPc (s.pc + 8)) := by
  rw [exec_jnz, if_pos hzf]
  rfl

end

/-- What an instruction that is a push-and-jump does and leaves alone, on both sides of the push's test (R115). -/
theorem takesJump_of_exec {i : Instr} {s : State} {target : Word} (h : exec i s = .next (pushAndJump s target)) :
    TakesJump i s target := by
  refine ⟨fun hfits => pushesAndGoes_of_exec ?fits, fun hfull => raisesOverflow_of_exec ?full⟩
  case fits => rw [h, pushAndJump_of_pushFits target hfits]
  case full => rw [h, pushAndJump_overflow target (below_of_not_pushFits hfull)]

/-- What an instruction that only advances pc by 8 does and leaves alone. -/
theorem fallsThrough_of_exec {i : Instr} {s : State} (h : exec i s = .next (s.setPc (s.pc + 8))) :
    FallsThrough i s :=
  ⟨_, h, fun r _ => s.setPc_reg _ r, rfl, rfl, fun _ => rfl, rfl, rfl, rfl⟩

/-- Settles O29: JMP is push-and-jump. -/
theorem jmpPushesItsAddress : Obligations.JmpPushesItsAddress :=
  ⟨formatJ_jmp, fun target s => takesJump_of_exec (exec_jmp target s)⟩

/-- Settles O30: with ZF true JZ is push-and-jump, with ZF false it only advances. -/
theorem jzJumpsOnZero : Obligations.JzJumpsOnZero :=
  ⟨formatJ_jz, fun target _ => ⟨fun hzf => takesJump_of_exec (exec_jz_taken target hzf),
    fun hzf => fallsThrough_of_exec (exec_jz_untaken target hzf)⟩⟩

/-- Settles O31: with ZF false JNZ is push-and-jump, with ZF true it only advances. -/
theorem jnzJumpsOnNonzero : Obligations.JnzJumpsOnNonzero :=
  ⟨formatJ_jnz, fun target _ => ⟨fun hzf => takesJump_of_exec (exec_jnz_taken target hzf),
    fun hzf => fallsThrough_of_exec (exec_jnz_untaken target hzf)⟩⟩

/-- Settles O32: CALL is push-and-jump, and so is JMP. -/
theorem callPushesItsAddress : Obligations.CallPushesItsAddress :=
  ⟨formatJ_call, fun target s => ⟨takesJump_of_exec (exec_call target s),
    (exec_call target s).trans (exec_jmp target s).symm⟩⟩

/-! RET (R120). -/

/-- Settles O33: the two sides of the pop's test; the reports of the word read are all that is left besides pc and
ESP. -/
theorem retGoesToPoppedWordPlusEight : Obligations.RetGoesToPoppedWordPlusEight := by
  refine ⟨formatN_ret, fun s => ⟨fun hfits => ?fits, fun hempty => ?empty⟩⟩
  case empty => exact raisesOnly_of_exec (exec_ret_underflow (below_of_not_popFits hempty))
  case fits =>
    refine ⟨_, exec_ret (popFits_iff.mp hfits), rfl, rfl, fun r hr => ?_, rfl, fun _ => rfl, rfl, rfl, rfl⟩
    have hr : r ≠ .esp := by simpa using hr
    simp [hr]

/-- A `RET` that fits, from a word in range, makes no report. -/
theorem exec_ret_of_wordValid {s : State} (hfits : PopFits s) (hword : WordValid s.cfg (s.reg .esp)) :
    exec .ret s = .next ((s.setReg .esp (s.reg .esp + 4)).setPc (s.peekWord (s.reg .esp) + 8)) := by
  rw [exec_ret (popFits_iff.mp hfits), reportsOf_eq_nil hword, State.addReports_nil]

/-! The return from a taken jump (R121, R123). -/

/-- With one slot free and ESP at most STACK_END a push fits, into a word that is in range and can be popped. -/
theorem slot_below_esp {s : State} (hlegal : s.cfg.legal = true)
    (hroom : (s.cfg.stackStart : Int) + 4 ≤ s32 (s.reg .esp)) (hend : s32 (s.reg .esp) ≤ (s.cfg.stackEnd : Int)) :
    PushFits s ∧ WordValid s.cfg (s.reg .esp - 4) ∧ s32 (s.reg .esp - 4) < (s.cfg.stackEnd : Int) := by
  obtain ⟨-, hc, -⟩ := s.cfg.legal_iff.mp hlegal
  have hsize : s.cfg.memSize = s.cfg.stackEnd := rfl
  have hint : s32 (s.reg .esp - 4) = s32 (s.reg .esp) - 4 := s32_sub_four (by omega)
  have hnat : s32 (s.reg .esp) = (s.reg .esp).toNat := s32_eq_toNat (by omega)
  have hslot : (s.reg .esp - 4).toNat + 4 = (s.reg .esp).toNat := toNat_sub_four (by omega)
  exact ⟨by unfold PushFits; omega, wordValid_of_toNat hc (by omega), by omega⟩

/-- A word pushed in range reads back (R107). -/
theorem State.pushed_peekWord {s : State} (v : Word) (h : WordValid s.cfg (s.reg .esp - 4)) :
    (s.pushed v).peekWord (s.reg .esp - 4) = v :=
  State.writeWord_peekWord v h

/-- The four taken forms are push-and-jump (R121). -/
theorem exec_taken_jump {s : State} {target : Word} {i : Instr}
    (h : i = .call target ∨ i = .jmp target ∨ (i = .jz target ∧ s.zf = true) ∨ (i = .jnz target ∧ s.zf = false)) :
    exec i s = .next (pushAndJump s target) := by
  rcases h with rfl | rfl | ⟨rfl, hzf⟩ | ⟨rfl, hzf⟩
  · exact exec_call target s
  · exact exec_jmp target s
  · exact exec_jz_taken target hzf
  · exact exec_jnz_taken target hzf

/-- Settles O34: the jump leaves its address in the slot below the old ESP, and a RET that finds ESP at that slot and
the word in it goes 8 past the address and puts ESP back. -/
theorem callReturnSymmetry : Obligations.CallReturnSymmetry := by
  intro s target i hlegal hroom hend htaken
  obtain ⟨hfits, hword, hpops⟩ := slot_below_esp hlegal hroom hend
  have hjump : exec i s = .next ((s.pushed s.pc).setPc target) := by
    rw [exec_taken_jump htaken, pushAndJump_of_pushFits target hfits]
  refine ⟨_, hjump, rfl, fun u hcfg hesp hslot => ?_⟩
  rw [State.setPc_cfg, State.pushed_cfg] at hcfg
  rw [State.setPc_reg, State.pushed_esp] at hesp hslot
  rw [State.setPc_peekWord, State.pushed_peekWord _ hword] at hslot
  have hfitsU : PopFits u := by
    unfold PopFits
    rwa [hesp, hcfg]
  have hret := exec_ret_of_wordValid hfitsU (by rwa [hesp, hcfg])
  rw [hesp, hslot, BitVec.sub_add_cancel] at hret
  exact ⟨_, hret, rfl, rfl, rfl⟩

end Sys2Proof.Machine

/-! Fatal errors (R125 to R134): which one a step raises, and what it leaves behind. -/

namespace Sys2Proof.Machine

open Sys2Proof.Claims

/-! The error of the phase and the opcode (R125, R134). -/

/-- With a known opcode a decode raises nothing but InvalidRegister (R61, R134). -/
theorem decode_error_of_mnemonic {c : Config} {bs : List Byte} {m : Mnemonic} {e : DecodeError}
    (h : c.mnemonicOf (byteAt bs 0) = some m) (herr : decode c bs = .error e) : e = .invalidRegister := by
  have hfollows := decodeOperands_follows c bs m
  rw [decode, decodeTrace_of_mnemonic h] at herr
  by_cases hbad : ∃ o ∈ m.format.regOffsets, c.regOf (byteAt bs o) = none
  · exact Except.error.inj (herr.symm.trans (hfollows.raises hbad))
  · push Not at hbad
    obtain ⟨-, i, hok⟩ := hfollows.completes hbad
    exact nomatch hok.symm.trans herr

/-- The reports of the fetch do not change which error an instruction meets. -/
theorem executeError_addReports (s : State) (l : List BoundsReport) (i : Instr) :
    executeError (s.addReports l) i = executeError s i := by
  cases i <;> simp only [executeError, pushError, popError, State.addReports_reg, State.addReports_cfg,
    State.addReports_zf]

theorem fatal_eq_none_of_runs {s : State} (h : Runs s) : s.fatal = none := (s.status_running_iff.mp h.2).1

/-- Settles O36: an unknown opcode byte and a bad register byte stop the decode, with their own codes; after it,
`Controls` says what the instruction latches. -/
theorem fatalErrorsHaveTheirCauses : Obligations.FatalErrorsHaveTheirCauses := by
  intro s hruns
  rw [← s.byteAt_window_zero]
  cases hop : s.cfg.mnemonicOf (byteAt s.window 0) with
  | none =>
    exact ⟨_, step_of_decode_error hruns (congrArg Decoded.result (decodeTrace_invalid_opcode hop)), rfl⟩
  | some m =>
    cases hdecode : decode s.cfg s.window with
    | error e =>
      obtain rfl := decode_error_of_mnemonic hop hdecode
      exact ⟨_, step_of_decode_error hruns hdecode, rfl⟩
    | ok i =>
      obtain ⟨t, hexec, hcontrols⟩ := exec_controls i (s.addReports
        (reportsOf s.cfg .read ((decodeTrace s.cfg s.window).reads.map s.operandAddr)))
      refine ⟨t, (step_of_decode_ok hruns hdecode).trans hexec, ?_⟩
      rw [hcontrols.fatal, executeError_addReports, State.addReports_fatal, fatal_eq_none_of_runs hruns,
        Option.or_none]

/-! The state a fatal error leaves (R132). -/

/-- The state a fatal error leaves: the latch, and for StackOverflow the decremented ESP (R107, R132). -/
def State.faulted (s : State) : FatalCode → State
  | .stackOverflow => (s.setReg .esp (s.reg .esp - 4)).raise .stackOverflow
  | code => s.raise code

theorem State.faulted_of_ne {code : FatalCode} (s : State) (h : code ≠ .stackOverflow) :
    s.faulted code = s.raise code := by
  cases code with
  | stackOverflow => exact absurd rfl h
  | _ => rfl

/-- A push that raises, raises StackOverflow, and is below the stack segment (R107, R129). -/
theorem below_of_pushError {s : State} {code : FatalCode} (h : pushError s = some code) :
    code = .stackOverflow ∧ below (s.reg .esp - 4) s.cfg.stackStart = true := by
  cases hbelow : below (s.reg .esp - 4) s.cfg.stackStart with
  | false => exact nomatch (pushError_of_not_below hbelow).symm.trans h
  | true => exact ⟨(Option.some.inj ((pushError_of_below hbelow).symm.trans h)).symm, rfl⟩

/-- A pop that raises, raises StackUnderflow, and is not below the stack segment's end (R108, R130). -/
theorem not_below_of_popError {s : State} {code : FatalCode} (h : popError s = some code) :
    code = .stackUnderflow ∧ below (s.reg .esp) s.cfg.stackEnd = false := by
  cases hbelow : below (s.reg .esp) s.cfg.stackEnd with
  | false => exact ⟨(Option.some.inj ((popError_of_not_below hbelow).symm.trans h)).symm, rfl⟩
  | true => exact nomatch (popError_of_below hbelow).symm.trans h

theorem pushAndJump_of_pushError {s : State} {code : FatalCode} (target : Word) (h : pushError s = some code) :
    pushAndJump s target = s.faulted code := by
  obtain ⟨rfl, hbelow⟩ := below_of_pushError h
  exact pushAndJump_overflow target hbelow

/-- An instruction that meets its execute-time error leaves what that error leaves, and nothing else. -/
theorem exec_of_executeError {i : Instr} {s : State} {code : FatalCode} (h : executeError s i = some code) :
    exec i s = .next (s.faulted code) := by
  cases i with
  | mov | movi | load | store | add | sub | mul | and | or | xor | not => cases h
  | div a b d =>
    obtain ⟨hzero, rfl⟩ : s.reg b = 0 ∧ .divideByZero = code := by simpa [executeError] using h
    exact exec_div_zero a d hzero
  | push r =>
    obtain ⟨rfl, hbelow⟩ := below_of_pushError h
    exact exec_push_overflow r hbelow
  | pop r =>
    obtain ⟨rfl, hbelow⟩ := not_below_of_popError h
    exact exec_pop_underflow r hbelow
  | ret =>
    obtain ⟨rfl, hbelow⟩ := not_below_of_popError h
    exact exec_ret_underflow hbelow
  | jmp target | call target => exact congrArg _ (pushAndJump_of_pushError target h)
  | jz target =>
    obtain ⟨hzf, h⟩ : s.zf = true ∧ pushError s = some code := by simpa [executeError] using h
    rw [exec_jz_taken target hzf, pushAndJump_of_pushError target h]
  | jnz target =>
    obtain ⟨hzf, h⟩ : s.zf = false ∧ pushError s = some code := by simpa [executeError] using h
    rw [exec_jnz_taken target hzf, pushAndJump_of_pushError target h]

/-- A step that latches a code leaves what that error leaves, after the reports of out-of-range bytes the fetch
read. -/
theorem step_eq_faulted {s t : State} {code : FatalCode} (hruns : Runs s) (hstep : step s = .next t)
    (hcode : t.fatal = some code) :
    ∃ l, t = (s.addReports l).faulted code ∧ ∀ r ∈ l, r.kind = .read ∧ valid s.cfg r.addr = false := by
  refine ⟨reportsOf s.cfg .read ((decodeTrace s.cfg s.window).reads.map s.operandAddr), ?_,
    fun r hr => ⟨kind_of_mem_reportsOf hr, mem_reportsOf hr⟩⟩
  cases hdecode : decode s.cfg s.window with
  | error e =>
    rw [step_of_decode_error hruns hdecode] at hstep
    cases hstep
    obtain rfl : fatalOfDecode e = code := Option.some.inj hcode
    exact (State.faulted_of_ne _ (by cases e <;> decide)).symm
  | ok i =>
    rw [step_of_decode_ok hruns hdecode] at hstep
    have hfatal := (Controls.of_exec hstep).fatal
    rw [State.addReports_fatal, fatal_eq_none_of_runs hruns, Option.or_none, hcode] at hfatal
    rw [exec_of_executeError hfatal.symm] at hstep
    exact (Host.Outcome.next.inj hstep).symm

/-- Settles O37: the step leaves what the error leaves, which for StackOverflow has ESP decremented too. -/
theorem fatalStepIsPrecise : Obligations.FatalStepIsPrecise := by
  intro s t code hruns hstep hcode
  obtain ⟨l, rfl, hreads⟩ := step_eq_faulted hruns hstep hcode
  refine ⟨(State.status_fatal_iff _ code).mpr hcode, ?_⟩
  by_cases hover : code = .stackOverflow
  · subst hover
    refine ⟨rfl, rfl, fun _ => rfl, rfl, rfl, fun _ => ⟨rfl, fun r hr => ?_⟩, absurd rfl, l, rfl, hreads⟩
    have hr : r ≠ .esp := by simpa using hr
    simp [State.faulted, hr]
  · rw [State.faulted_of_ne _ hover]
    refine ⟨rfl, rfl, fun _ => rfl, rfl, rfl, (absurd · hover), fun _ r _ => ?_, l, rfl, hreads⟩
    rw [State.raise_reg, State.addReports_reg]

end Sys2Proof.Machine

/-! The host's two resets, each with what it leaves alone (R151, R152). -/

namespace Sys2Proof.Machine

open Sys2Proof.Claims

/-! CPU reset: the CPU of a fresh boot, over the memory and the report log the machine had (R151). -/

@[simp] theorem State.cpuReset_reg (s : State) (r : Reg) : s.cpuReset.reg r = (State.boot s.cfg).reg r := by
  cases r <;> rfl
@[simp] theorem State.cpuReset_pc (s : State) : s.cpuReset.pc = (State.boot s.cfg).pc := rfl
@[simp] theorem State.cpuReset_zf (s : State) : s.cpuReset.zf = (State.boot s.cfg).zf := rfl
@[simp] theorem State.cpuReset_fatal (s : State) : s.cpuReset.fatal = none := rfl
@[simp] theorem State.cpuReset_peek (s : State) (a : Word) : s.cpuReset.peek a = s.peek a := rfl
@[simp] theorem State.cpuReset_errlog (s : State) : s.cpuReset.errlog = s.errlog := rfl
@[simp] theorem State.cpuReset_cfg (s : State) : s.cpuReset.cfg = s.cfg := rfl

/-! Memory reset: the memory of a fresh boot, under the CPU the machine had (R152). -/

@[simp] theorem State.memReset_peek (s : State) (a : Word) : s.memReset.peek a = 0 := State.boot_peek s.cfg a
@[simp] theorem State.memReset_reg (s : State) (r : Reg) : s.memReset.reg r = s.reg r := by cases r <;> rfl
@[simp] theorem State.memReset_pc (s : State) : s.memReset.pc = s.pc := rfl
@[simp] theorem State.memReset_zf (s : State) : s.memReset.zf = s.zf := rfl

theorem State.memReset_sameRest (s : State) : SameRest s s.memReset := ⟨rfl, rfl, rfl⟩

/-- Settles O51: what CPU reset sets has the value boot gives it, and memory reset leaves the memory of boot. -/
theorem hostResets : Obligations.HostResets := by
  intro s
  obtain ⟨hesp, hpc, hgpr, hzf, -⟩ := bootState s.cfg
  refine ⟨⟨(s.cpuReset_reg .esp).trans hesp, s.cpuReset_pc.trans hpc, fun r hr => ?_, s.cpuReset_zf.trans hzf,
    s.cpuReset_fatal, s.cpuReset_peek, s.cpuReset_errlog, s.cpuReset_cfg⟩,
    s.memReset_peek, fun r _ => s.memReset_reg r, s.memReset_pc, s.memReset_zf, s.memReset_sameRest⟩
  exact (s.cpuReset_reg r).trans (hgpr r hr)

end Sys2Proof.Machine
